-- ==== Sys2Proof/Word.lean ====
section
/-!
DEFINITION. The word types of the frame receiver (spec 00_scope.md R8, R9; 10_state.md R20, R23, R25).
Every value is an unsigned integer of the width stated with it, and bit 0 is the least significant.
-/

namespace Sys2Proof

/-- One input byte, or one byte of PBUF (R34, R45, R65). -/
abbrev Byte := BitVec 8

/-- DLEN, PLEN, and one ADC reading: 16 bits (R5, R23, R25). -/
abbrev Half := BitVec 16

/-- POS: 17 bits (R6, R20). -/
abbrev Position := BitVec 17

end Sys2Proof
end

