-- ==== Sys2Proof/Config.lean ====
section
/-!
DEFINITION. The constants of the hardware (spec 00_scope.md R5, R6) and its two open parameters (R7).
The constants are hardwired: no agent can write them (R5, R30, R58).
-/

namespace Sys2Proof.Config

/-- START_MARKER (R5). -/
def startMarker : Byte := 0x7E

/-- ANALOG_TAG, the frame type of the analog-sample report (R5). -/
def analogTag : Byte := 0x83

/-- HDR_LEN, the bytes of the fixed analog-report header (R5). -/
def hdrLen : Nat := 8

/-- NUM_CH, the analog channel slots (R5). -/
def numCh : Nat := 6

/-- SAMPLE_BITS, the width of one ADC reading (R5). -/
def sampleBits : Nat := 16

/-- LEN_BITS, the width of the declared length (R5). -/
def lenBits : Nat := 16

/-- POS_BITS, the width of POS (R6). -/
def posBits : Nat := 17

/-- POS_MAX, where POS saturates (R6, R22). -/
def posMax : Nat := 0x1FFFF

/-- POS_IDLE, the reset value of POS (R6, R21). -/
def posIdle : Position := 0x1FFFF

/-- BUF_CAP, the bytes of PBUF, at offsets 0 to 65534 (R6, R45). -/
def bufCap : Nat := 65535

/-- DIAG_BITS, the width of the diagnostic sum (R6, R121). -/
def diagBits : Nat := 11

/-- EVENT_NAME, the one name under which all events go out (R7, R36).
DESIGN CHOICE, safe (log 9): the spec leaves it open and no rule depends on it, so it has no body here. -/
opaque eventName : String

/-- STEP_LATENCY, the time of one step (R7, R179).
DESIGN CHOICE, safe (log 9): the spec leaves it open, the model is untimed, and nothing reads it. -/
opaque stepLatency : Nat

end Sys2Proof.Config
end

