-- ==== Sys2Proof/Machine/State.lean ====
section
/-!
DEFINITION. The state of one frame receiver, its events, and the reasons a step can stop
(spec 10_state.md R20 to R41, 20_memory.md R45, R46, 41_decoder.md R122, 42_sample_extractor.md R137).
-/

namespace Sys2Proof.Machine

/-- One slot of a sample set (R137): the "no data" marker, distinct from every reading, or a reading. -/
inductive Slot where
  | noData
  | value (v : Half)
  deriving DecidableEq, Repr

/-- One sample set: a slot for each of the NUM_CH = 6 channels (R136, R138). -/
abbrev SampleSet := Vector Slot 6

/-- AnalogSampleFrame, the record of an analog-sample report (R122). -/
structure AnalogRecord where
  frameType : Byte
  sourceAddress16 : Half
  signalStrength : Byte
  isAddressBroadcast : Bool
  isPanBroadcast : Bool
  totalSampleSets : Byte
  channelIndicatorHigh : Byte
  channelIndicatorLow : Byte
  enabledChannels : BitVec 6
  analogChannelCount : BitVec 3
  sampleSets : List SampleSet
  diagnosticChecksum : BitVec 11
  deriving DecidableEq, Repr

/-- The record with nothing extracted yet. DESIGN CHOICE, unsafe (log 4): the spec names no such record. -/
def AnalogRecord.blank : AnalogRecord where
  frameType := 0
  sourceAddress16 := 0
  signalStrength := 0
  isAddressBroadcast := false
  isPanBroadcast := false
  totalSampleSets := 0
  channelIndicatorHigh := 0
  channelIndicatorLow := 0
  enabledChannels := 0
  analogChannelCount := 0
  sampleSets := []
  diagnosticChecksum := 0

/-- One event of the output (R36). -/
inductive Event where
  | analog (record : AnalogRecord)                            -- kind code 1, R122
  | raw (bytes : List Byte) (length : Half)                   -- kind code 2, R111
  | truncated (frameType : Byte) (actual required : Half)     -- kind code 3, R150
  deriving DecidableEq, Repr

/-- The contents of PBUF, as (offset, byte) pairs: offsets strictly rising, each below BUF_CAP. An offset
that is not listed holds no value (R46), so no listed entry can equal what an unlisted one reads as. -/
abbrev Memory := List Host.Cell

/-- Why a step stops. The spec has no traps (R154); these are the model's stops. -/
inductive Fault where
  /-- Raised by a read of a payload byte at an offset at or above PLEN, at or above the payload's length,
  or that holds no value (R46; 93_implementation_defined.md U1, U3). Safe: the spec asks for it. -/
  | pbufNoValue
  /-- Raised by a write to PBUF at an offset that does not exist, at or above BUF_CAP (R45). Safe. -/
  | pbufNoSuchOffset
  /-- Raised by an operation that is executed where its row's condition does not hold (R75, R76, the
  guard column of opcode_table.json). Safe: the hardware never performs it there, and `step` never
  raises it. -/
  | notSelected
  deriving DecidableEq, Repr

/-- Why an operation has no meaning in the model. -/
inductive Refusal where
  /-- Raised by `exec` for an operation without a meaning; no arm raises it. Safe. -/
  | notModelled (mnemonic : String)
  deriving DecidableEq, Repr

/-- One instance of the frame receiver (R26, R30, R36, R160). -/
structure State where
  /-- POS, the offset the next byte will have (R20). -/
  pos : Position
  /-- DLEN, the declared length (R23). -/
  dlen : Half
  /-- PLEN, the payload buffer's fill count (R25). -/
  plen : Half
  /-- PBUF (R45, R46). -/
  mem : Memory
  /-- The events emitted since reset, oldest first (R36, R37). -/
  events : List Event
  /-- The model's own: bytes delivered by the host and not yet consumed, next one first (R34, log 3). -/
  input : List Byte
  /-- The model's own: where an extraction leaves its result (log 4). -/
  draft : AnalogRecord
  deriving DecidableEq, Repr

/-- The state of a new instance (R33, R170), with no byte delivered and a blank draft (log 3, log 4). -/
def State.reset : State where
  pos := Config.posIdle
  dlen := 0
  plen := 0
  mem := []
  events := []
  input := []
  draft := .blank

end Sys2Proof.Machine
end

