-- ==== Sys2Proof/Machine/Flags.lean ====
section
/-!
DEFINITION. The flag computations. The frame receiver keeps no status flags or condition codes (spec
10_state.md R29); its two booleans are fields of the analog record, computed afresh for each frame.
-/

namespace Sys2Proof.Machine

/-- isAddressBroadcast: bit 1 of the option byte (R70, R116). -/
def addressBroadcast (option : Byte) : Bool := option.getLsbD 1

/-- isPanBroadcast: bit 2 of the option byte (R70, R117). -/
def panBroadcast (option : Byte) : Bool := option.getLsbD 2

end Sys2Proof.Machine
end

