-- ==== Sys2Proof/Syntax.lean ====
section
/-!
DEFINITION. The 18 operations of spec/opcode_table.json, one constructor a row (spec 30_encoding.md R81).
The hardware executes no instructions (R2): an "instruction" here is an operation of the operation map.
-/

namespace Sys2Proof

/-- One operation. The `FR_` rows carry the input byte that selects them; `DEC_RAW` carries the tag that
selects it. The payload that the `DEC_` and `EX_` rows work on is PBUF (R47), so it is no operand here. -/
inductive Instr where
  | frSync                -- FR_SYNC, R88: the byte is 0x7E
  | frLenh (b : Byte)     -- FR_LENH, R89: `b` is the length's high byte
  | frLenl (b : Byte)     -- FR_LENL, R90: `b` is the length's low byte
  | frPay (b : Byte)      -- FR_PAY, R91: `b` is a payload byte
  | frEmit (b : Byte)     -- FR_EMIT, R92: `b` is the trailing checksum, its value ignored
  | frSkip (b : Byte)     -- FR_SKIP, R94: `b` is ignored
  | decAnalog             -- DEC_ANALOG, R122: the tag is 0x83
  | decRaw (tag : Byte)   -- DEC_RAW, R111: `tag` is payload byte 0
  | exType                -- EX_TYPE, R113
  | exSrc16               -- EX_SRC16, R114
  | exRssi                -- EX_RSSI, R115
  | exAbcast              -- EX_ABCAST, R116
  | exPbcast              -- EX_PBCAST, R117
  | exNsets               -- EX_NSETS, R118
  | exChind               -- EX_CHIND, R119
  | exChmask              -- EX_CHMASK, R130
  | exSamples             -- EX_SAMPLES, R136
  | exDiag                -- EX_DIAG, R121
  deriving DecidableEq, Repr

/-- The place in an analog payload that an extraction reads: the "mask" column of the table's EX_ rows. -/
structure Field where
  first : Nat             -- first payload offset
  last : Option Nat       -- last payload offset, none where it depends on the payload (8 + 2nS - 1, R69)
  hi : Nat                -- highest bit of each byte
  lo : Nat                -- lowest bit of each byte
  deriving DecidableEq, Repr

/-- What selects an operation, apart from the FRAMER's registers: the three kinds of row of the table. -/
inductive Code where
  | input (b : Byte)      -- format F: one input byte
  | tag (t : Byte)        -- formats A and R: payload byte 0 (R76)
  | field (f : Field)     -- format A field extraction: a place in the payload
  deriving DecidableEq, Repr

end Sys2Proof
end

