-- ==== Sys2Proof/WellFormed.lean ====
section
/-!
DEFINITION. Which operations can be written in the spec's encodings (30_encoding.md R66, R74, R77).
-/

namespace Sys2Proof

/-- The operand may stand in the operation's encoding: no FRAMER operand is the start marker, which is
FR_SYNC in every state (R77), and no raw payload carries the analog tag (R74). -/
def Instr.wellFormed : Instr → Bool
  | .frSync => true
  | .frLenh b => b != Config.startMarker
  | .frLenl b => b != Config.startMarker
  | .frPay b => b != Config.startMarker
  | .frEmit b => b != Config.startMarker
  | .frSkip b => b != Config.startMarker
  | .decAnalog => true
  | .decRaw tag => tag != Config.analogTag
  | .exType => true
  | .exSrc16 => true
  | .exRssi => true
  | .exAbcast => true
  | .exPbcast => true
  | .exNsets => true
  | .exChind => true
  | .exChmask => true
  | .exSamples => true
  | .exDiag => true

end Sys2Proof
end

