-- ==== Sys2Proof/Decode.lean ====
section
/-!
DEFINITION. Operation selection and its inverse: the byte pattern and guard columns of spec/opcode_table.json
(spec 30_encoding.md R75, R76, R69), and the bits the table gives a row.
-/

namespace Sys2Proof

/-! ### The guards of the FRAMER's rows, over `b` and POS, DLEN, PLEN at the start of the step (R75) -/

/-- Row 2 of R75. -/
abbrev selectsLenh (b : Byte) (p : Position) : Prop := b ≠ Config.startMarker ∧ p = 1

/-- Row 3 of R75. -/
abbrev selectsLenl (b : Byte) (p : Position) : Prop := b ≠ Config.startMarker ∧ p = 2

/-- Row 4 of R75. -/
abbrev selectsPay (b : Byte) (p : Position) (dlen plen : Half) : Prop :=
  b ≠ Config.startMarker ∧ 2 < p.toNat ∧ plen.toNat < dlen.toNat

/-- Row 5 of R75. -/
abbrev selectsEmit (b : Byte) (p : Position) (dlen plen : Half) : Prop :=
  b ≠ Config.startMarker ∧ 0 < dlen.toNat ∧ plen = dlen ∧ p.toNat = dlen.toNat + 3

/-- Row 6 of R75: none of rows 2 to 5. -/
abbrev selectsSkip (b : Byte) (p : Position) (dlen plen : Half) : Prop :=
  b ≠ Config.startMarker ∧ ¬ selectsLenh b p ∧ ¬ selectsLenl b p ∧ ¬ selectsPay b p dlen plen ∧
    ¬ selectsEmit b p dlen plen

/-- The FRAMER's operation for one byte: the first row of R75 whose condition holds. Total: no byte is
illegal in any state (R65). -/
def decodeInput (b : Byte) (p : Position) (dlen plen : Half) : Instr :=
  if b = Config.startMarker then .frSync
  else if selectsLenh b p then .frLenh b
  else if selectsLenl b p then .frLenl b
  else if selectsPay b p dlen plen then .frPay b
  else if selectsEmit b p dlen plen then .frEmit b
  else .frSkip b

/-- The DECODER's operation for payload byte 0 (R76). -/
def decodeTag (t : Byte) : Instr :=
  if t = Config.analogTag then .decAnalog else .decRaw t

/-- Why a code or a payload selects no operation. -/
inductive DecodeError where
  | emptyPayload          -- Decode is defined for payloads of at least one byte (R76, R110)
  | noSuchField           -- no row of the table extracts this place
  deriving DecidableEq, Repr

/-- The DECODER's operation for a whole payload (R76). -/
def decodePayload : List Byte → Except DecodeError Instr
  | [] => .error .emptyPayload
  | t :: _ => .ok (decodeTag t)

/-- The place each extraction reads: the "mask" column of the table's EX_ rows (R69). -/
def fieldOf : Instr → Option Field
  | .frSync => none
  | .frLenh _ => none
  | .frLenl _ => none
  | .frPay _ => none
  | .frEmit _ => none
  | .frSkip _ => none
  | .decAnalog => none
  | .decRaw _ => none
  | .exType => some ⟨0, some 0, 7, 0⟩
  | .exSrc16 => some ⟨1, some 2, 7, 0⟩
  | .exRssi => some ⟨3, some 3, 7, 0⟩
  | .exAbcast => some ⟨4, some 4, 1, 1⟩
  | .exPbcast => some ⟨4, some 4, 2, 2⟩
  | .exNsets => some ⟨5, some 5, 7, 0⟩
  | .exChind => some ⟨6, some 7, 7, 0⟩
  | .exChmask => some ⟨6, some 6, 6, 1⟩
  | .exSamples => some ⟨8, none, 7, 0⟩
  | .exDiag => some ⟨0, some 7, 7, 0⟩

/-- The extractions of DEC_ANALOG, in the table's order (R81, R122). -/
def extractions : List Instr :=
  [.exType, .exSrc16, .exRssi, .exAbcast, .exPbcast, .exNsets, .exChind, .exChmask, .exSamples, .exDiag]

/-- The extraction that reads a place. -/
def decodeField (f : Field) : Except DecodeError Instr :=
  match extractions.find? (fun i => decide (fieldOf i = some f)) with
  | some i => .ok i
  | none => .error .noSuchField

/-- The operation a code selects, with POS, DLEN and PLEN as they stand. -/
def decode (c : Code) (p : Position) (dlen plen : Half) : Except DecodeError Instr :=
  match c with
  | .input b => .ok (decodeInput b p dlen plen)
  | .tag t => .ok (decodeTag t)
  | .field f => decodeField f

/-- The code of an operation: the match column of its row with its operand in place. -/
def encode : Instr → Code
  | .frSync => .input Config.startMarker
  | .frLenh b => .input b
  | .frLenl b => .input b
  | .frPay b => .input b
  | .frEmit b => .input b
  | .frSkip b => .input b
  | .decAnalog => .tag Config.analogTag
  | .decRaw t => .tag t
  | .exType => .field ⟨0, some 0, 7, 0⟩
  | .exSrc16 => .field ⟨1, some 2, 7, 0⟩
  | .exRssi => .field ⟨3, some 3, 7, 0⟩
  | .exAbcast => .field ⟨4, some 4, 1, 1⟩
  | .exPbcast => .field ⟨4, some 4, 2, 2⟩
  | .exNsets => .field ⟨5, some 5, 7, 0⟩
  | .exChind => .field ⟨6, some 7, 7, 0⟩
  | .exChmask => .field ⟨6, some 6, 6, 1⟩
  | .exSamples => .field ⟨8, none, 7, 0⟩
  | .exDiag => .field ⟨0, some 7, 7, 0⟩

/-- The state condition of an operation's row (guard column); the rows without one hold everywhere. -/
def Instr.guardHolds (i : Instr) (p : Position) (dlen plen : Half) : Prop :=
  match i with
  | .frSync => True
  | .frLenh b => selectsLenh b p
  | .frLenl b => selectsLenl b p
  | .frPay b => selectsPay b p dlen plen
  | .frEmit b => selectsEmit b p dlen plen
  | .frSkip b => selectsSkip b p dlen plen
  | .decAnalog => True
  | .decRaw _ => True
  | .exType => True
  | .exSrc16 => True
  | .exRssi => True
  | .exAbcast => True
  | .exPbcast => True
  | .exNsets => True
  | .exChind => True
  | .exChmask => True
  | .exSamples => True
  | .exDiag => True

/-- The byte-coded rows of the table as (match, mask); the EX_ rows have no byte pattern. -/
def matchMask : Instr → Option (Byte × Byte)
  | .frSync => some (0x7E, 0xFF)
  | .frLenh _ => some (0x00, 0x00)
  | .frLenl _ => some (0x00, 0x00)
  | .frPay _ => some (0x00, 0x00)
  | .frEmit _ => some (0x00, 0x00)
  | .frSkip _ => some (0x00, 0x00)
  | .decAnalog => some (0x83, 0xFF)
  | .decRaw _ => some (0x00, 0x00)
  | .exType => none
  | .exSrc16 => none
  | .exRssi => none
  | .exAbcast => none
  | .exPbcast => none
  | .exNsets => none
  | .exChind => none
  | .exChmask => none
  | .exSamples => none
  | .exDiag => none

/-- A row's byte pattern accepts a byte. -/
def accepts (mm : Byte × Byte) (b : Byte) : Bool := b &&& mm.2 == mm.1

/-- The operation of a table word of 8 bits. DESIGN CHOICE, safe (log 6): a byte alone does not say
whether it is an input byte or payload byte 0, nor in which state it arrives, so the word 0x83, which only
DEC_ANALOG's row fixes, is read as payload byte 0, and every other word as the input byte of a FRAMER in
its reset state (R33). No row has another length. -/
def decodeTableWord (nbits w : Nat) : Option Instr :=
  if nbits = 8 then
    let b : Byte := BitVec.ofNat 8 w
    if b = Config.analogTag then some (decodeTag b)
    else some (decodeInput b Config.posIdle 0 0)
  else none

end Sys2Proof
end

