-- ==== Sys2Proof/Machine/Operands.lean ====
section
/-!
DEFINITION. The operand forms: the bit fields, the big-endian pair, the channel mask with its count and ranks,
the sample offset, the required length, the diagnostic sum, the saturating position, and the packed forms
(spec 00_scope.md R9, 41_decoder.md, 42_sample_extractor.md).
-/

namespace Sys2Proof.Machine

/-- `zext_16` of a byte (R9). -/
def zext16 (b : Byte) : Half := b.setWidth 16

/-- `sat17 x` is `min x 0x1FFFF` (R9, R22). -/
def sat17 (x : Nat) : Position := BitVec.ofNat 17 (min x Config.posMax)

/-- `hi ‖ lo`, the big-endian 16-bit value of two bytes (R50, R51). -/
def bigEndian (hi lo : Byte) : Half := hi ++ lo

/-- The number of 1 bits (R9). -/
def popcount {w : Nat} (v : BitVec w) : Nat := (List.range w).countP fun k => v.getLsbD k

/-- EN, the mask of enabled channels: bits 6 to 1 of channelIndicatorHigh (R130). -/
def channelMask (chH : Byte) : BitVec 6 := chH.extractLsb' 1 6

/-- Channel `c` is enabled: bit `c` of EN (R130). -/
def channelEnabled (en : BitVec 6) (c : Nat) : Bool := en.getLsbD c

/-- `enabledChannels` as the ascending list of channel indices (R131). -/
def channelList (en : BitVec 6) : List Nat := (List.range Config.numCh).filter (channelEnabled en)

/-- `rank c`: the number of enabled channels below `c` (R133). -/
def rank (en : BitVec 6) (c : Nat) : Nat := popcount (en.extractLsb' 0 c)

/-- `off(s, c) = 8 + 2·n·s + 2·rank(c)`, where the reading of channel `c` in sample set `s` starts (R134). -/
def sampleOffset (en : BitVec 6) (s c : Nat) : Nat :=
  Config.hdrLen + 2 * popcount en * s + 2 * rank en c

/-- `req = 8 + 2·n·S`, the length a report with mask `en` and `sets` sample sets needs (R120). -/
def requiredLength (en : BitVec 6) (sets : Byte) : Nat :=
  Config.hdrLen + 2 * popcount en * sets.toNat

/-- The exact sum of the header bytes, in 11 bits (R121). -/
def diagnosticSum (header : List Byte) : BitVec 11 :=
  BitVec.ofNat 11 (header.map BitVec.toNat).sum

/-- The packed 17-bit form of a slot: bit 16 is the valid bit (R137). -/
def Slot.pack : Slot → BitVec 17
  | .noData => 0
  | .value v => (1 : BitVec 1) ++ v

/-- The slot of a packed form (R137). -/
def unpackSlot (x : BitVec 17) : Slot :=
  if x.getLsbD 16 then .value (x.extractLsb' 0 16) else .noData

/-- The kind code of an event (R36). -/
def Event.kindCode : Event → Nat
  | .analog _ => 1
  | .raw _ _ => 2
  | .truncated _ _ _ => 3

/-- The kind code of what one step emitted, 0 where it emitted nothing (R36). -/
def stepKindCode : Option Event → Nat
  | none => 0
  | some e => e.kindCode

end Sys2Proof.Machine
end

