-- ==== Sys2Proof/Machine/Ops.lean ====
section
/-!
DEFINITION. The named operations over PBUF, the registers, the event output and the input stream
(spec 20_memory.md R45 to R54, 10_state.md R22, R34 to R38). The spec has no traps and nothing to return
from (R154, R155): the one outward operation is `State.emit`, which also reports the TRUNCATED error (R150).
-/

namespace Sys2Proof.Machine

/-- What a meaning answers. -/
abbrev Result := Host.Outcome State Fault Refusal

/-- One operation after another: the second runs on the state the first leaves. -/
def andThen (r : Result) (f : State → Result) : Result :=
  match r with
  | .next s => f s
  | .fault e => .fault e
  | .refused e => .refused e

/-- Several operations in order. -/
def runAll : List (State → Result) → State → Result
  | [], s => .next s
  | f :: fs, s => andThen (f s) (runAll fs)

/-! ### PBUF -/

/-- The canonical form: offsets strictly rising, each an offset of PBUF (R45). -/
abbrev Memory.wf (m : Memory) : Prop :=
  m.Pairwise (fun a b => a.1 < b.1) ∧ ∀ c ∈ m, c.1 < Config.bufCap

/-- The byte at an offset, none where the offset holds no value. -/
def Memory.read : Memory → Nat → Option Byte
  | [], _ => none
  | (k, x) :: m, a => if a = k then some x else Memory.read m a

/-- Put a byte at an offset, keeping the offsets strictly rising. -/
def Memory.write : Memory → Nat → Byte → Memory
  | [], a, v => [(a, v)]
  | (k, x) :: m, a, v =>
    if a < k then (a, v) :: (k, x) :: m
    else if a = k then (a, v) :: m
    else (k, x) :: Memory.write m a v

/-- The byte PBUF holds at an offset: an entry at or above PLEN holds no value (R46). -/
def State.pbufRead (s : State) (a : Nat) : Option Byte :=
  if a < s.plen.toNat then Memory.read s.mem a else none

/-- `MemWrite(a, 1, v)` (R10, R47): one byte; the offset must exist (R45). -/
def State.pbufWrite (s : State) (a : Nat) (v : Byte) : Except Fault State :=
  if a < Config.bufCap then .ok { s with mem := Memory.write s.mem a v }
  else .error .pbufNoSuchOffset

/-- PBUF without content (R46). -/
def State.pbufClear (s : State) : State := { s with mem := [] }

/-! ### The payload handed to the DECODER: `P = PBUF[0..DLEN-1]`, with `N = DLEN` (R47, R110) -/

/-- `N`, the payload's length (R110). -/
def State.payloadLength (s : State) : Nat := s.dlen.toNat

/-- `P[i]`. A read beyond the payload, or of an entry that holds no value, faults (R46; U1). -/
def State.byteAt (s : State) (i : Nat) : Except Fault Byte :=
  if i < s.payloadLength then
    match s.pbufRead i with
    | some v => .ok v
    | none => .error .pbufNoValue
  else .error .pbufNoValue

/-- `MemRead(i, 2)`: two byte reads, big-endian, at any offset (R51, R52). -/
def State.halfAt (s : State) (i : Nat) : Except Fault Half :=
  match s.byteAt i with
  | .error f => .error f
  | .ok hi =>
    match s.byteAt (i + 1) with
    | .error f => .error f
    | .ok lo => .ok (bigEndian hi lo)

/-- `P[i], …, P[i + count - 1]`, in order. -/
def State.bytesFrom (s : State) : (count : Nat) → (i : Nat) → Except Fault (List Byte)
  | 0, _ => .ok []
  | count + 1, i =>
    match s.byteAt i with
    | .error f => .error f
    | .ok v =>
      match State.bytesFrom s count (i + 1) with
      | .error f => .error f
      | .ok vs => .ok (v :: vs)

/-! ### POS, the events and the input stream -/

/-- `POS <- sat17(POS + 1)`, the end of every step (R22, R95). -/
def State.advance (s : State) : State := { s with pos := sat17 (s.pos.toNat + 1) }

/-- `emit(ev)`: append an event to the output; the sink accepts it in this step (R10, R36 to R38). -/
def State.emit (s : State) (ev : Event) : State := { s with events := s.events ++ [ev] }

/-- The events as the sink sees them, all under the one event name (R7, R36). -/
def State.published (s : State) : List (String × Event) :=
  s.events.map fun ev => (Config.eventName, ev)

/-- The host delivers a chunk: its bytes join the stream, in order (R34, R35, R173). -/
def State.deliver (s : State) (chunk : List Byte) : State := { s with input := s.input ++ chunk }

/-- Take the next byte of the stream (R34), none while the host has delivered nothing more. -/
def State.fetch (s : State) : Option (Byte × State) :=
  match s.input with
  | [] => none
  | b :: rest => some (b, { s with input := rest })

/-- The FRAMER's operation for a byte in this state (R75). -/
def State.select (s : State) (b : Byte) : Instr := decodeInput b s.pos s.dlen s.plen

/-! ### Placing one table word where the next step takes it (log 6) -/

/-- PBUF holding the header of an analog report: the tag, then zeros (R69). -/
def tagPayload (t : Byte) : Memory :=
  (0, t) :: (List.range (Config.hdrLen - 1)).map fun k => (k + 1, 0)

/-- The word `w` of a table row, placed so that the very next step performs the operation that
`decodeTableWord` reads from it. An input byte goes to the head of the input stream. The DECODER runs
inside FR_EMIT (R92), so its tag is placed as payload byte 0 of a complete payload of eight bytes, the
rest zeros, whose checksum byte, 0, is the next input byte. A word of another length, which no row has,
changes nothing. -/
def State.placeTableWord (s : State) (nbits w : Nat) : State :=
  let b : Byte := BitVec.ofNat 8 w
  if nbits ≠ 8 then s
  else if b = Config.analogTag then
    { s with
      pos := BitVec.ofNat 17 (Config.hdrLen + 3)
      dlen := BitVec.ofNat 16 Config.hdrLen
      plen := BitVec.ofNat 16 Config.hdrLen
      mem := tagPayload b
      input := 0 :: s.input }
  else { s with input := b :: s.input }

end Sys2Proof.Machine
end

