-- ==== Sys2Proof/Machine/Extractor.lean ====
section
/-!
DEFINITION. The field extractions EX_* of DEC_ANALOG (spec 41_decoder.md R113 to R121, 42_sample_extractor.md
R130 to R137). Each reads its place in the payload and leaves its fields in the draft record (log 4).
-/

namespace Sys2Proof.Machine

/-- The guard of every EX_ row, "inside DEC_ANALOG, N >= 8": the payload carries the analog tag and its
fixed header is whole (R110, R112).
DESIGN CHOICE, unsafe (log 13): it does not ask that FR_EMIT be selected, so an extraction executed by itself
reads PBUF with N = DLEN in other states too, where R47 has no read. -/
def insideAnalog (s : State) : Except Fault Unit :=
  match s.byteAt 0 with
  | .error f => .error f
  | .ok t =>
    if t = Config.analogTag ∧ Config.hdrLen ≤ s.payloadLength then .ok () else .error .notSelected

/-- What every extraction does: under its guard, put what it read into the draft record. -/
def fillDraft {α : Type} (s : State) (r : Except Fault α) (put : α → AnalogRecord → AnalogRecord) :
    Result :=
  match insideAnalog s with
  | .error f => .fault f
  | .ok _ =>
    match r with
    | .error f => .fault f
    | .ok v => .next { s with draft := put v s.draft }

/-- EX_TYPE (R113). -/
def execExType (s : State) : Result :=
  fillDraft s (s.byteAt 0) fun v d => { d with frameType := v }

/-- EX_SRC16 (R114). -/
def execExSrc16 (s : State) : Result :=
  fillDraft s (s.halfAt 1) fun v d => { d with sourceAddress16 := v }

/-- EX_RSSI (R115). -/
def execExRssi (s : State) : Result :=
  fillDraft s (s.byteAt 3) fun v d => { d with signalStrength := v }

/-- EX_ABCAST (R116). -/
def execExAbcast (s : State) : Result :=
  fillDraft s (s.byteAt 4) fun v d => { d with isAddressBroadcast := addressBroadcast v }

/-- EX_PBCAST (R117). -/
def execExPbcast (s : State) : Result :=
  fillDraft s (s.byteAt 4) fun v d => { d with isPanBroadcast := panBroadcast v }

/-- EX_NSETS (R118). -/
def execExNsets (s : State) : Result :=
  fillDraft s (s.byteAt 5) fun v d => { d with totalSampleSets := v }

/-- The two indicator bytes (R119). -/
def indicators (s : State) : Except Fault (Byte × Byte) :=
  (s.byteAt 6).bind fun high => (s.byteAt 7).map fun low => (high, low)

/-- EX_CHIND (R119). -/
def execExChind (s : State) : Result :=
  fillDraft s (indicators s) fun v d =>
    { d with channelIndicatorHigh := v.1, channelIndicatorLow := v.2 }

/-- EX_CHMASK: the mask and its count (R130, R132). -/
def execExChmask (s : State) : Result :=
  fillDraft s (s.byteAt 6) fun chH d =>
    { d with
      enabledChannels := channelMask chH
      analogChannelCount := BitVec.ofNat 3 (popcount (channelMask chH)) }

/-- EX_DIAG (R121). -/
def execExDiag (s : State) : Result :=
  fillDraft s (s.bytesFrom Config.hdrLen 0) fun header d =>
    { d with diagnosticChecksum := diagnosticSum header }

/-! ### The sample area -/

/-- Slot `c` of sample set `k`: the reading of an enabled channel, else NODATA (R135 to R137). -/
def readSlot (s : State) (en : BitVec 6) (k c : Nat) : Except Fault Slot :=
  if channelEnabled en c then (s.halfAt (sampleOffset en k c)).map Slot.value else .ok .noData

/-- Sample set `k`, channels in ascending order (R136). -/
def readSet (s : State) (en : BitVec 6) (k : Nat) : Except Fault SampleSet :=
  (readSlot s en k 0).bind fun c0 =>
  (readSlot s en k 1).bind fun c1 =>
  (readSlot s en k 2).bind fun c2 =>
  (readSlot s en k 3).bind fun c3 =>
  (readSlot s en k 4).bind fun c4 =>
  (readSlot s en k 5).map fun c5 => #v[c0, c1, c2, c3, c4, c5]

/-- `count` sample sets from set `k` on, in ascending order (R136). -/
def readSets (s : State) (en : BitVec 6) : (count : Nat) → (k : Nat) → Except Fault (List SampleSet)
  | 0, _ => .ok []
  | count + 1, k =>
    (readSet s en k).bind fun v => (readSets s en count (k + 1)).map fun vs => v :: vs

/-- EN and S as the header of the payload gives them (R118, R130). -/
def maskAndSets (s : State) : Except Fault (BitVec 6 × Byte) :=
  (s.byteAt 6).bind fun chH => (s.byteAt 5).map fun sets => (channelMask chH, sets)

/-- The sample sets of the payload, under the guard of EX_SAMPLES' row, `N ≥ 8 + 2·n·S` (R120, R136). -/
def readSampleArea (s : State) : Except Fault (List SampleSet) :=
  (maskAndSets s).bind fun h =>
    if s.payloadLength < requiredLength h.1 h.2 then .error .notSelected
    else readSets s h.1 h.2.toNat 0

/-- EX_SAMPLES (R136). -/
def execExSamples (s : State) : Result :=
  fillDraft s (readSampleArea s) fun v d => { d with sampleSets := v }

end Sys2Proof.Machine
end

