-- ==== Sys2Proof/Machine/Decoder.lean ====
section
/-!
DEFINITION. The DECODER's two operations (spec 41_decoder.md R110 to R112, R120, R122 to R124; 60_exceptions.md
R150). It reads the payload and emits one event; it writes nothing else (R124).
-/

namespace Sys2Proof.Machine

/-- DEC_RAW (R111): a payload whose byte 0 is `tag`, not the analog tag, goes out whole and unchanged.
DESIGN CHOICE, unsafe (log 13): executed by itself it reads PBUF with N = DLEN also where FR_EMIT is not
selected, where R47 has no read. -/
def execDecRaw (tag : Byte) (s : State) : Result :=
  match s.byteAt 0 with
  | .error f => .fault f
  | .ok t =>
    if t = tag ∧ tag ≠ Config.analogTag then
      match s.bytesFrom s.payloadLength 0 with
      | .error f => .fault f
      | .ok bytes => .next (s.emit (.raw bytes s.dlen))
    else .fault .notSelected

/-- The ten extractions in the table's order, each filling its fields of the draft record (R122). -/
def extractRecord : State → Result :=
  runAll [execExType, execExSrc16, execExRssi, execExAbcast, execExPbcast, execExNsets, execExChind,
    execExChmask, execExSamples, execExDiag]

/-- The analog record of a payload whose guards have passed (R122). The draft is not kept: Decode writes
no state (R124, R31). -/
def emitRecord (s : State) : Result :=
  match extractRecord s with
  | .next t => .next (s.emit (.analog t.draft))
  | .fault f => .fault f
  | .refused r => .refused r

/-- DEC_ANALOG (R110, R122): the header guard (R112), then the required-length guard (R120), then the
record; a guard that fails gives the TRUNCATED event (R150).
DESIGN CHOICE, unsafe (log 13): executed by itself it reads PBUF with N = DLEN also where FR_EMIT is not
selected, where R47 has no read. -/
def execDecAnalog (s : State) : Result :=
  match s.byteAt 0 with
  | .error f => .fault f
  | .ok t =>
    if t ≠ Config.analogTag then .fault .notSelected
    else if s.payloadLength < Config.hdrLen then
      .next (s.emit (.truncated t s.dlen (BitVec.ofNat 16 Config.hdrLen)))
    else
      match maskAndSets s with
      | .error f => .fault f
      | .ok (en, sets) =>
        if s.payloadLength < requiredLength en sets then
          .next (s.emit (.truncated t s.dlen (BitVec.ofNat 16 (requiredLength en sets))))
        else emitRecord s

/-- `emit(Decode(P))`: dispatch on payload byte 0 (R76, R110). -/
def decodePayloadNow (s : State) : Result :=
  match s.byteAt 0 with
  | .error f => .fault f
  | .ok t => if t = Config.analogTag then execDecAnalog s else execDecRaw t s

end Sys2Proof.Machine
end

