-- ==== Sys2Proof/Machine/Framer.lean ====
section
/-!
DEFINITION. The FRAMER's six operations (spec 40_framer.md R88 to R95). Each stops by name where its row's
condition does not hold (log 5).
-/

namespace Sys2Proof.Machine

/-- FR_SYNC (R88): a new frame; the marker is at offset 0, so POS becomes 1. -/
def execFrSync (s : State) : Result :=
  .next { s.pbufClear with pos := 0, dlen := 0, plen := 0 }.advance

/-- FR_LENH (R89). -/
def execFrLenh (b : Byte) (s : State) : Result :=
  if selectsLenh b s.pos then .next { s with dlen := s.dlen + (zext16 b <<< 8) }.advance
  else .fault .notSelected

/-- FR_LENL (R90). -/
def execFrLenl (b : Byte) (s : State) : Result :=
  if selectsLenl b s.pos then .next { s with dlen := s.dlen + zext16 b }.advance
  else .fault .notSelected

/-- FR_PAY (R91): append the byte at offset PLEN. -/
def execFrPay (b : Byte) (s : State) : Result :=
  if selectsPay b s.pos s.dlen s.plen then
    match s.pbufWrite s.plen.toNat b with
    | .error f => .fault f
    | .ok t => .next { t with plen := t.plen + 1 }.advance
  else .fault .notSelected

/-- FR_EMIT (R92): hand the payload to the DECODER; the byte itself, the trailing checksum, is ignored
(R93). -/
def execFrEmit (b : Byte) (s : State) : Result :=
  if selectsEmit b s.pos s.dlen s.plen then andThen (decodePayloadNow s) fun t => .next t.advance
  else .fault .notSelected

/-- FR_SKIP (R94): only POS advances. -/
def execFrSkip (b : Byte) (s : State) : Result :=
  if selectsSkip b s.pos s.dlen s.plen then .next s.advance else .fault .notSelected

end Sys2Proof.Machine
end

