-- ==== Sys2Proof/Machine/Dispatch.lean ====
section
/-!
DEFINITION. The dispatch: one arm for each operation of spec/opcode_table.json.
-/

namespace Sys2Proof.Machine

-- Each arm is one call of the operation's own meaning.
def exec (i : Instr) (s : State) : Host.Outcome State Fault Refusal :=
  match i with
  | .frSync => Sys2Proof.Machine.execFrSync s
  | .frLenh b => Sys2Proof.Machine.execFrLenh b s
  | .frLenl b => Sys2Proof.Machine.execFrLenl b s
  | .frPay b => Sys2Proof.Machine.execFrPay b s
  | .frEmit b => Sys2Proof.Machine.execFrEmit b s
  | .frSkip b => Sys2Proof.Machine.execFrSkip b s
  | .decAnalog => Sys2Proof.Machine.execDecAnalog s
  | .decRaw tag => Sys2Proof.Machine.execDecRaw tag s
  | .exType => Sys2Proof.Machine.execExType s
  | .exSrc16 => Sys2Proof.Machine.execExSrc16 s
  | .exRssi => Sys2Proof.Machine.execExRssi s
  | .exAbcast => Sys2Proof.Machine.execExAbcast s
  | .exPbcast => Sys2Proof.Machine.execExPbcast s
  | .exNsets => Sys2Proof.Machine.execExNsets s
  | .exChind => Sys2Proof.Machine.execExChind s
  | .exChmask => Sys2Proof.Machine.execExChmask s
  | .exSamples => Sys2Proof.Machine.execExSamples s
  | .exDiag => Sys2Proof.Machine.execExDiag s

end Sys2Proof.Machine
end

