-- ==== Sys2Proof/Machine/Step.lean ====
section
/-!
DEFINITION. One step of the machine: the consumption of one input byte (spec 00_scope.md R11, 40_framer.md R85).
-/

namespace Sys2Proof.Machine

/-- The FRAMER consumes one byte: the operation R75 selects, executed. -/
def framerStep (b : Byte) (s : State) : Host.Outcome State Fault Refusal :=
  exec (s.select b) s

/-- Consume the next byte of the input stream. While there is none, the frame receiver waits with all its
state kept (R162; log 3). -/
def step (s : State) : Host.Outcome State Fault Refusal :=
  match s.fetch with
  | none => .next s
  | some (b, t) => framerStep b t

/-- The state whose very next step performs the operation of a table word (log 6). -/
def State.withFetchWord (s : State) (nbits w : Nat) : State := s.placeTableWord nbits w

end Sys2Proof.Machine
end

