-- ==== Sys2Proof/Machine/Ingest.lean ====
section
/-!
DEFINITION. The host's `ingest`, the trace of a byte stream, the phases, and the end of a run
(spec 10_state.md R35, R41; 30_encoding.md R80; 40_framer.md R102).
-/

namespace Sys2Proof.Machine

/-- `ingest(chunk)`: one FRAMER step a byte, in order, from the state the previous call left (R35). -/
def ingest : List Byte → State → Host.Outcome State Fault Refusal
  | [], s => .next s
  | b :: rest, s => andThen (framerStep b s) (ingest rest)

/-- Several `ingest` calls, one a chunk, in order (R35; the `|` of R12). -/
def ingestChunks : List (List Byte) → State → Host.Outcome State Fault Refusal
  | [], s => .next s
  | chunk :: rest, s => andThen (ingest chunk s) (ingestChunks rest)

/-- The operations a byte stream performs, in order, as far as the machine goes on (R80). -/
def trace : List Byte → State → List Instr
  | [], _ => []
  | b :: rest, s =>
    s.select b ::
      match framerStep b s with
      | .next t => trace rest t
      | .fault _ => []
      | .refused _ => []

/-- A FRAMER operation's name in the trace notation `byte/OP` (R80). -/
def traceName : Instr → Option String
  | .frSync => some "SYNC"
  | .frLenh _ => some "LENH"
  | .frLenl _ => some "LENL"
  | .frPay _ => some "PAY"
  | .frEmit _ => some "EMIT"
  | .frSkip _ => some "SKIP"
  | .decAnalog => none
  | .decRaw _ => none
  | .exType => none
  | .exSrc16 => none
  | .exRssi => none
  | .exAbcast => none
  | .exPbcast => none
  | .exNsets => none
  | .exChind => none
  | .exChmask => none
  | .exSamples => none
  | .exDiag => none

/-- The phases of the FRAMER between steps (R102). -/
inductive Phase where
  | lenH
  | lenL
  | payload
  | cksum
  | inert
  deriving DecidableEq, Repr

/-- The phase, a function of (POS, DLEN) (R102). The rule gives it for reachable states; what no row of
its table covers (POS = 0) is counted INERT. -/
def State.phase (s : State) : Phase :=
  if s.pos = 1 then .lenH
  else if s.pos = 2 then .lenL
  else if 0 < s.dlen.toNat ∧ 3 ≤ s.pos.toNat ∧ s.pos.toNat ≤ s.dlen.toNat + 2 then .payload
  else if 0 < s.dlen.toNat ∧ s.pos.toNat = s.dlen.toNat + 3 then .cksum
  else .inert

/-- A frame is in progress and has not been emitted: at the end of a run it is pending (R41).
DESIGN CHOICE (log 14): a zero-length frame is not pending once its header is complete (POS = 3, DLEN = 0). R41
by its letter would count it, its byte at offset DLEN + 3 not having arrived; by R68 and R102 that byte emits
nothing and the phase is INERT. -/
def State.pending (s : State) : Bool := s.phase != .inert

/-- A run: a finite byte sequence consumed from the reset state (R41). Its result is the state it leaves,
with the events emitted. -/
def run (bytes : List Byte) : Host.Outcome State Fault Refusal := ingest bytes .reset

end Sys2Proof.Machine
end

