-- ==== Sys2Proof/Machine/Platform.lean ====
section
/-!
DEFINITION. Several independent frame receivers and the host's two operations on them: create an instance and
ingest a chunk (spec 60_exceptions.md R160, R163; 10_state.md R39; 70_reset_and_hazards.md R170).
-/

namespace Sys2Proof.Machine

/-- The frame receivers that exist. They share no state (R160); the position in the list is the host's
own handle, since instances have no identifiers. -/
structure Platform where
  receivers : List State
  deriving DecidableEq, Repr

/-- Create an instance: a new frame receiver in the reset state (R170). -/
def Platform.create (m : Platform) : Platform := ⟨m.receivers ++ [.reset]⟩

/-- Ingest a chunk on the instance with handle `k`: none where there is no such instance, or where the
instance stops (Inv of Safety.lean excludes that). -/
def Platform.ingest (m : Platform) (k : Nat) (chunk : List Byte) : Option Platform :=
  match m.receivers[k]? with
  | none => none
  | some s =>
    match Sys2Proof.Machine.ingest chunk s with
    | .next t => some ⟨m.receivers.set k t⟩
    | .fault _ => none
    | .refused _ => none

end Sys2Proof.Machine
end

