-- ==== Sys2Proof/Machine/Reference.lean ====
section
/-!
DEFINITION. The spec's own pseudocode, transcribed whole and apart from the machine: `Decode(P)` of 41_decoder.md
R110 and R122 with `SampleSets` of 42_sample_extractor.md R136, over the payload as a list, and `FramerStep(b)`
of 40_framer.md R85. Statements compare the machine with it.
-/

namespace Sys2Proof.Machine.Reference

/-- `P[i]`. The guards of R110 run before any read beyond offset 0, so the default is never used (R139). -/
def at0 (P : List Byte) (i : Nat) : Byte := P.getD i 0

/-- Slot `c` of sample set `k`: the body of R136's inner loop. -/
def slot (P : List Byte) (en : BitVec 6) (k c : Nat) : Slot :=
  let n := popcount en
  let off := 8 + 2 * n * k + 2 * popcount (en.extractLsb' 0 c)
  if en.getLsbD c then .value (at0 P off ++ at0 P (off + 1)) else .noData

/-- `SampleSets(P, EN, S)` (R136). -/
def sampleSets (P : List Byte) (en : BitVec 6) (S : Nat) : List SampleSet :=
  (List.range S).map fun k =>
    #v[slot P en k 0, slot P en k 1, slot P en k 2, slot P en k 3, slot P en k 4, slot P en k 5]

/-- `AnalogRecord(P)` (R122). -/
def analogRecord (P : List Byte) : AnalogRecord :=
  let en : BitVec 6 := (at0 P 6).extractLsb' 1 6
  { frameType := at0 P 0
    sourceAddress16 := at0 P 1 ++ at0 P 2
    signalStrength := at0 P 3
    isAddressBroadcast := (at0 P 4).getLsbD 1
    isPanBroadcast := (at0 P 4).getLsbD 2
    totalSampleSets := at0 P 5
    channelIndicatorHigh := at0 P 6
    channelIndicatorLow := at0 P 7
    enabledChannels := en
    analogChannelCount := BitVec.ofNat 3 (popcount en)
    sampleSets := sampleSets P en (at0 P 5).toNat
    diagnosticChecksum := BitVec.ofNat 11
      ((at0 P 0).toNat + (at0 P 1).toNat + (at0 P 2).toNat + (at0 P 3).toNat +
        (at0 P 4).toNat + (at0 P 5).toNat + (at0 P 6).toNat + (at0 P 7).toNat) }

/-- `Decode(P)`, for a payload of 1 to 65535 bytes (R110). -/
def decodeEvent (P : List Byte) : Event :=
  let N := P.length
  if at0 P 0 ≠ 0x83 then .raw P (BitVec.ofNat 16 N)
  else if N < 8 then .truncated (at0 P 0) (BitVec.ofNat 16 N) 8
  else
    let n := popcount ((at0 P 6).extractLsb' 1 6)
    let req := 8 + 2 * n * (at0 P 5).toNat
    if N < req then .truncated (at0 P 0) (BitVec.ofNat 16 N) (BitVec.ofNat 16 req)
    else .analog (analogRecord P)

/-- The bytes a memory lists at offsets 0 to `len - 1`, in order. -/
def contents (m : Memory) (len : Nat) : List Byte :=
  (List.range len).map fun a => (Memory.read m a).getD 0

/-- `FramerStep(b)`: the tests in the order of R85, each on the state left by the tests before it, POS
advancing last. -/
def framerStep (b : Byte) (s : State) : State :=
  -- if b == 0x7E: p := 0 ; L := 0 ; PL := 0, and the payload buffer is empty
  let p : Nat := if b = 0x7E then 0 else s.pos.toNat
  let L0 : Half := if b = 0x7E then 0 else s.dlen
  let PL0 : Half := if b = 0x7E then 0 else s.plen
  let m0 : Memory := if b = 0x7E then [] else s.mem
  -- if p == 1: L := L + (zext_16(b) << 8)
  let L1 : Half := if p = 1 then L0 + ((b.setWidth 16 : Half) <<< 8) else L0
  -- if p == 2: L := L + zext_16(b)
  let L : Half := if p = 2 then L1 + (b.setWidth 16 : Half) else L1
  -- if p > 2 and PL < L: MemWrite(PL, 1, b) ; PL := PL + 1
  let appends : Bool := decide (p > 2) && decide (PL0.toNat < L.toNat)
  let m : Memory := if appends then Memory.write m0 PL0.toNat b else m0
  let PL : Half := if appends then PL0 + 1 else PL0
  -- if L > 0 and PL == L and p == L + 3: emit(Decode(PBUF[0 .. L-1]))
  let emits : Bool := decide (L.toNat > 0) && decide (PL = L) && decide (p = L.toNat + 3)
  -- POS <- sat17(p + 1) ; DLEN <- L ; PLEN <- PL
  { s with
    pos := sat17 (p + 1)
    dlen := L
    plen := PL
    mem := m
    events := if emits then s.events ++ [decodeEvent (contents m L.toNat)] else s.events }

end Sys2Proof.Machine.Reference
end

