-- ==== Sys2Proof/Safety.lean ====
section
/-!
DEFINITION. The terms the statements use: the invariant of the reachable states (spec 10_state.md R24, R27,
20_memory.md R46), what a payload in PBUF is, and which event lists are consistent (42_sample_extractor.md R138).
-/

namespace Sys2Proof.Machine

/-- R27: POS ≤ 2 and PLEN = 0, or POS ≥ 3 and `PLEN = min(DLEN, POS - 3)`. -/
abbrev State.fillInv (s : State) : Prop :=
  (s.pos.toNat ≤ 2 ∧ s.plen = 0) ∨
    (3 ≤ s.pos.toNat ∧ s.plen.toNat = min s.dlen.toNat (s.pos.toNat - 3))

/-- R24, between steps: no length byte has been added before offset 1, only the high byte before
offset 2. -/
abbrev State.lengthInv (s : State) : Prop :=
  (s.pos.toNat ≤ 1 → s.dlen = 0) ∧ (s.pos = 2 → s.dlen.toNat % 256 = 0)

/-- R46: PBUF holds a value at the offsets 0 to PLEN-1, and at no other; listed in rising order. -/
abbrev State.bufferInv (s : State) : Prop := s.mem.map Prod.fst = List.range s.plen.toNat

/-- The invariant of every state reached from reset. -/
abbrev State.Inv (s : State) : Prop := s.fillInv ∧ s.lengthInv ∧ s.bufferInv

/-- The payload handed to the DECODER in this state is `P` (R47): N is its length, and PBUF holds its
bytes. It does not ask that FR_EMIT be selected (log 13). -/
abbrev State.Holds (s : State) (P : List Byte) : Prop :=
  s.payloadLength = P.length ∧ ∀ i, i < P.length → s.pbufRead i = P[i]?

/-- R138, for one sample set: slot `c` is a reading exactly when channel `c` is enabled. -/
abbrev laneConsistent (en : BitVec 6) (v : SampleSet) : Prop :=
  ∀ c, (h : c < 6) → (v[c] ≠ Slot.noData ↔ en.getLsbD c = true)

/-- R138, for a record. -/
abbrev AnalogRecord.consistent (r : AnalogRecord) : Prop :=
  r.analogChannelCount.toNat = popcount r.enabledChannels ∧
    r.sampleSets.length = r.totalSampleSets.toNat ∧
    ∀ v ∈ r.sampleSets, laneConsistent r.enabledChannels v

/-- R138, for an event; RAW and TRUNCATED carry no record. -/
def Event.consistent : Event → Prop
  | .analog r => r.consistent
  | .raw _ _ => True
  | .truncated _ _ _ => True

/-- R150, R76: what an event of Decode may be: a TRUNCATED one always has the analog tag and an actual
length below the required one, a RAW one holds the payload's bytes, at least one, and not the tag. -/
def Event.legal : Event → Prop
  | .analog r => r.frameType = Config.analogTag
  | .raw bytes n => bytes.length = n.toNat ∧ 0 < n.toNat ∧ bytes.head? ≠ some Config.analogTag
  | .truncated t actual required =>
    t = Config.analogTag ∧ actual.toNat < required.toNat ∧ 8 ≤ required.toNat ∧ required.toNat ≤ 3068

/-- The machine goes on. -/
def goesOn (r : Host.Outcome State Fault Refusal) : Prop := ∃ t, r = .next t

/-- A frame on the wire (R66): marker, declared length, payload, checksum. -/
def wireFrame (P : List Byte) (ck : Byte) : List Byte :=
  Config.startMarker :: BitVec.ofNat 8 (P.length / 256) :: BitVec.ofNat 8 P.length :: (P ++ [ck])

/-- A frame the FRAMER can deliver (R77, R97): a payload of 1 to 65535 bytes, and no byte after offset 0
that is the start marker. -/
def deliverable (P : List Byte) (ck : Byte) : Prop :=
  0 < P.length ∧ P.length < 65536 ∧ ∀ b ∈ (wireFrame P ck).tail, b ≠ Config.startMarker

end Sys2Proof.Machine
end

