-- ==== Sys2Proof/Certificates/Slice0/Obligations.lean ====
section
/-!
DEFINITION. The statements for the provers, from the numbered rules of spec/. A docstring names the rules, and
says where a statement rests on a decision D<n> or an inference that the spec marks as its own, or on a choice
of the model (log n).
-/

open Sys2Proof Sys2Proof.Machine

/-! ### Reset and the step -/

/-- The reset state (R33, R170; every value is the spec's own decision D2; input and draft: log 3, log 4). -/
def Obligations.ResetLeavesIdleReceiver : Prop :=
  State.reset.pos = 0x1FFFF ∧ State.reset.dlen = 0 ∧ State.reset.plen = 0 ∧
    (∀ a, State.reset.pbufRead a = none) ∧ State.reset.events = [] ∧ State.reset.input = []

/-- The reset state meets the invariant of R24, R27 and R46 (derived; R27 says so of the idle state). -/
def Obligations.ResetMeetsInvariant : Prop :=
  State.reset.Inv ∧ Memory.wf State.reset.mem

/-- A step takes the next byte off the input stream and executes the operation its byte selects, on the
state without that byte (R11, R34, R75); with no byte waiting, the receiver waits with all its state kept
(R162). The input stream as a list in the state is the model's choice, log 3. -/
def Obligations.StepRunsDecodedOperation : Prop :=
  (∀ (s : State) (b : Byte) (rest : List Byte), s.input = b :: rest →
    step s = exec (decodeInput b s.pos s.dlen s.plen) { s with input := rest }) ∧
  ∀ s : State, s.input = [] → step s = .next s

/-! ### Encoding -/

/-- Decoding an encoded well-formed operation gives it back, in every state its row's condition admits,
for every operand (R66, R75, R76; the EX_ rows by their place in the payload, log 7). -/
def Obligations.DecodeEncodeAgree : Prop :=
  ∀ (i : Instr) (p : Position) (dlen plen : Half), i.wellFormed = true → i.guardHolds p dlen plen →
    decode (encode i) p dlen plen = .ok i

/-- What decoding answers encodes back to the code, is well-formed, and stands where its row's condition
holds (R75, R76). -/
def Obligations.EncodeDecodeAgree : Prop :=
  ∀ (c : Code) (i : Instr) (p : Position) (dlen plen : Half), decode c p dlen plen = .ok i →
    encode i = c ∧ i.wellFormed = true ∧ i.guardHolds p dlen plen

/-- Every (byte, state) pair selects exactly one operation (R75, which the spec derives from R85 to
R87). -/
def Obligations.EachByteSelectsOneOperation : Prop :=
  ∀ (b : Byte) (p : Position) (dlen plen : Half),
    ∃! i : Instr, encode i = .input b ∧ i.wellFormed = true ∧ i.guardHolds p dlen plen

/-- The table's two fixed words and one word of each other kind, read from the spec (R66, R69, R75,
R76). -/
def Obligations.SpecWordsDecode : Prop :=
  decodeInput 0b01111110 7 9 4 = .frSync ∧
    decodeInput 0b00000001 1 0 0 = .frLenh 0x01 ∧
    decodeInput 0b00000010 2 0x0100 0 = .frLenl 0x02 ∧
    decodeInput 0b10000011 3 10 0 = .frPay 0x83 ∧
    decodeInput 0b00000000 13 10 10 = .frEmit 0x00 ∧
    decodeInput 0b00010001 0x1FFFF 0 0 = .frSkip 0x11 ∧
    decodePayload [0b10000011, 0x00] = .ok .decAnalog ∧
    decodePayload [0b10000001, 0x12] = .ok (.decRaw 0x81) ∧
    decodeField ⟨4, some 4, 1, 1⟩ = .ok .exAbcast ∧
    decodeField ⟨6, some 6, 6, 1⟩ = .ok .exChmask

/-! ### The FRAMER -/

/-- FR_SYNC, in every state (R88): POS, DLEN and PLEN, PBUF without content (R46), and nothing else; two
markers in a row leave the same state as one. -/
def Obligations.FrSyncStartsNewFrame : Prop :=
  ∀ s : State,
    s.select 0x7E = .frSync ∧
    ∃ t, exec .frSync s = .next t ∧ t = { s with pos := 1, dlen := 0, plen := 0, mem := [] } ∧
      (∀ a, t.pbufRead a = none) ∧ exec .frSync t = .next t

/-- FR_LENH (R89); the result is `b ‖ 0x00` where the invariant holds. -/
def Obligations.FrLenhAddsHighByte : Prop :=
  ∀ (s : State) (b : Byte), b ≠ 0x7E → s.pos = 1 →
    exec (.frLenh b) s = .next { s with dlen := s.dlen + (zext16 b <<< 8), pos := 2 } ∧
      (s.Inv → s.dlen + (zext16 b <<< 8) = b ++ (0x00 : Byte))

/-- FR_LENL (R90); the sum has no carry where the invariant holds. -/
def Obligations.FrLenlAddsLowByte : Prop :=
  ∀ (s : State) (b : Byte), b ≠ 0x7E → s.pos = 2 →
    exec (.frLenl b) s = .next { s with dlen := s.dlen + zext16 b, pos := 3 } ∧
      (s.Inv → (s.dlen + zext16 b).toNat = s.dlen.toNat + b.toNat)

/-- FR_PAY (R91): the byte lands at offset PLEN, an offset of PBUF, PLEN rises by one without a wrap, and
POS advances, exactly at `p = PLEN + 3` where the invariant holds. -/
def Obligations.FrPayAppendsByte : Prop :=
  ∀ (s : State) (b : Byte), b ≠ 0x7E → 2 < s.pos.toNat → s.plen.toNat < s.dlen.toNat →
    s.plen.toNat < Config.bufCap ∧
    (s.Inv → s.pos.toNat = s.plen.toNat + 3) ∧
    ∃ t, exec (.frPay b) s = .next t ∧
      t = { s with
            mem := Memory.write s.mem s.plen.toNat b
            plen := s.plen + 1
            pos := sat17 (s.pos.toNat + 1) } ∧
      t.plen.toNat = s.plen.toNat + 1 ∧ t.pbufRead s.plen.toNat = some b ∧
      (s.Inv → t.pos.toNat = s.pos.toNat + 1)

/-- FR_EMIT (R92): the event is `Decode(PBUF[0..DLEN-1])` for any checksum byte but the marker; DLEN, PLEN
and PBUF stay; and a 0x7E in its place is FR_SYNC. -/
def Obligations.FrEmitHandsPayloadToDecoder : Prop :=
  ∀ (s : State) (P : List Byte) (b : Byte), s.Holds P → b ≠ 0x7E → 0 < s.dlen.toNat →
    s.plen = s.dlen → s.pos.toNat = s.dlen.toNat + 3 →
    (∃ t, exec (.frEmit b) s = .next t ∧
      t = { s with events := s.events ++ [Reference.decodeEvent P], pos := t.pos } ∧
      t.pos.toNat = s.pos.toNat + 1) ∧
    framerStep 0x7E s = exec .frSync s

/-- FR_SKIP (R94; its three cases are derived and rest on D2): only POS changes. -/
def Obligations.FrSkipOnlyAdvances : Prop :=
  ∀ (s : State) (b : Byte), selectsSkip b s.pos s.dlen s.plen →
    exec (.frSkip b) s = .next { s with pos := sat17 (s.pos.toNat + 1) }

/-- Executed where its row's condition does not hold, a FRAMER operation stops by name (log 5: the
model's choice; `step` never does so). -/
def Obligations.FramerOperationsStopUnselected : Prop :=
  ∀ (s : State) (b : Byte) (i : Instr),
    i ∈ [Instr.frLenh b, .frLenl b, .frPay b, .frEmit b, .frSkip b] →
    ¬ i.guardHolds s.pos s.dlen s.plen → exec i s = .fault .notSelected

/-- POS at the end of every step (R95; saturation is decision D3). -/
def Obligations.EveryStepAdvancesPosition : Prop :=
  ∀ (s t : State) (b : Byte), framerStep b s = .next t →
    t.pos.toNat = if b = 0x7E then 1 else min (s.pos.toNat + 1) 0x1FFFF

/-- Frame of the operations that store nothing and emit nothing: FR_LENH, FR_LENL and FR_SKIP leave every
byte of PBUF, PLEN, the events, the stream and the draft as they were, and FR_SKIP leaves DLEN (R89, R90,
R94). -/
def Obligations.LengthAndSkipFrame : Prop :=
  ∀ (s t : State) (b : Byte) (i : Instr), i ∈ [Instr.frLenh b, .frLenl b, .frSkip b] →
    exec i s = .next t →
    t.plen = s.plen ∧ (∀ a, t.pbufRead a = s.pbufRead a) ∧ t.events = s.events ∧
      t.input = s.input ∧ t.draft = s.draft ∧ (i = .frSkip b → t.dlen = s.dlen)

/-- Frame of FR_PAY: it stores one byte, at offset PLEN; every other offset reads as before, and DLEN, the
events, the stream and the draft stay (R91, R47). -/
def Obligations.FrPayFrame : Prop :=
  ∀ (s t : State) (b : Byte), exec (.frPay b) s = .next t →
    t.dlen = s.dlen ∧ t.events = s.events ∧ t.input = s.input ∧ t.draft = s.draft ∧
      ∀ a, a ≠ s.plen.toNat → t.pbufRead a = s.pbufRead a

/-- Frame of the emitting operations: exactly one event is appended; FR_EMIT also writes POS; nothing else
changes, PBUF included (R92, R124, R150).
The same where FR_EMIT is not selected: the model's choice, log 13. -/
def Obligations.EmissionFrame : Prop :=
  ∀ (s t : State) (b : Byte) (i : Instr), i ∈ [Instr.frEmit b, .decAnalog, .decRaw b] →
    exec i s = .next t →
    ∃ ev, t = { s with events := s.events ++ [ev], pos := t.pos } ∧
      (i ≠ .frEmit b → t.pos = s.pos)

/-- Frame of the extractions: only the draft record changes (R53, R124; the draft: log 4).
The same where FR_EMIT is not selected: the model's choice, log 13. -/
def Obligations.ExtractionFrame : Prop :=
  ∀ (s t : State) (i : Instr), i ∈ extractions → exec i s = .next t →
    t = { s with draft := t.draft }

/-! ### The DECODER -/

/-- DEC_RAW (R111; what the event carries is decision D23).
The same where FR_EMIT is not selected: the model's choice, log 13. -/
def Obligations.DecRawPassesPayload : Prop :=
  ∀ (s : State) (tag : Byte) (rest : List Byte), s.Holds (tag :: rest) → tag ≠ 0x83 →
    exec (.decRaw tag) s =
      .next { s with events := s.events ++ [.raw (tag :: rest) s.dlen] }

/-- DEC_ANALOG, the record (R122).
The same where FR_EMIT is not selected: the model's choice, log 13. -/
def Obligations.DecAnalogEmitsRecord : Prop :=
  ∀ (s : State) (b1 b2 b3 b4 b5 b6 b7 : Byte) (area : List Byte),
    s.Holds (0x83 :: b1 :: b2 :: b3 :: b4 :: b5 :: b6 :: b7 :: area) →
    8 + 2 * popcount (channelMask b6) * b5.toNat ≤ 8 + area.length →
    exec .decAnalog s = .next { s with events := s.events ++ [.analog
      { frameType := 0x83
        sourceAddress16 := b1 ++ b2
        signalStrength := b3
        isAddressBroadcast := b4.getLsbD 1
        isPanBroadcast := b4.getLsbD 2
        totalSampleSets := b5
        channelIndicatorHigh := b6
        channelIndicatorLow := b7
        enabledChannels := b6.extractLsb' 1 6
        analogChannelCount := BitVec.ofNat 3 (popcount (channelMask b6))
        sampleSets := Reference.sampleSets
          (0x83 :: b1 :: b2 :: b3 :: b4 :: b5 :: b6 :: b7 :: area) (channelMask b6) b5.toNat
        diagnosticChecksum := BitVec.ofNat 11 (0x83 + b1.toNat + b2.toNat + b3.toNat +
          b4.toNat + b5.toNat + b6.toNat + b7.toNat) }] }

/-- The header guard (R112, decision D6): a tagged payload of fewer than 8 bytes is TRUNCATED with required
length 8, whatever else PBUF holds.
The same where FR_EMIT is not selected: the model's choice, log 13. -/
def Obligations.ShortHeaderIsTruncated : Prop :=
  ∀ s : State, s.pbufRead 0 = some 0x83 → 0 < s.dlen.toNat → s.dlen.toNat < 8 →
    exec .decAnalog s = .next { s with events := s.events ++ [.truncated 0x83 s.dlen 8] }

/-- The required length (R120): its range; the TRUNCATED event where N is below it, whatever the sample
area holds; and where N reaches it, the bytes below it are all that DEC_ANALOG needs.
The same where FR_EMIT is not selected: the model's choice, log 13. -/
def Obligations.RequiredLengthDecides : Prop :=
  ∀ (s : State) (sets chH : Byte), s.pbufRead 0 = some 0x83 → s.pbufRead 5 = some sets →
    s.pbufRead 6 = some chH → 8 ≤ s.dlen.toNat →
    let req := 8 + 2 * popcount (channelMask chH) * sets.toNat
    (8 ≤ req ∧ req ≤ 3068) ∧
    (s.dlen.toNat < req → exec .decAnalog s =
      .next { s with events := s.events ++ [.truncated 0x83 s.dlen (BitVec.ofNat 16 req)] }) ∧
    (req ≤ s.dlen.toNat → (∀ i, i < req → (s.pbufRead i).isSome = true) →
      ∃ r, exec .decAnalog s = .next { s with events := s.events ++ [.analog r] })

/-- Excess bytes are ignored (R123, decision D7): two payloads that agree below the required length give
the same event, whatever their lengths and the rest of them.
The same where FR_EMIT is not selected: the model's choice, log 13. -/
def Obligations.ExcessBytesAreIgnored : Prop :=
  ∀ (s t : State) (sets chH : Byte), s.pbufRead 0 = some 0x83 → s.pbufRead 5 = some sets →
    s.pbufRead 6 = some chH →
    8 + 2 * popcount (channelMask chH) * sets.toNat ≤ s.dlen.toNat →
    8 + 2 * popcount (channelMask chH) * sets.toNat ≤ t.dlen.toNat →
    (∀ i, i < 8 + 2 * popcount (channelMask chH) * sets.toNat →
      (s.pbufRead i).isSome = true ∧ t.pbufRead i = s.pbufRead i) →
    ∃ r, exec .decAnalog s = .next { s with events := s.events ++ [.analog r] } ∧
      exec .decAnalog t = .next { t with events := t.events ++ [.analog r] }

/-- An unknown frame type is the RAW event, not an error (R151). -/
def Obligations.UnknownTypeIsRawEvent : Prop :=
  ∀ (s : State) (tag : Byte) (rest : List Byte) (b : Byte), s.Holds (tag :: rest) → tag ≠ 0x83 →
    selectsEmit b s.pos s.dlen s.plen →
    ∃ t, framerStep b s = .next t ∧ t.events = s.events ++ [.raw (tag :: rest) s.dlen]

/-- Decode is pure (R124): it appends one event, the same one for equal payloads, and changes nothing
else.
The same where FR_EMIT is not selected: the model's choice, log 13. -/
def Obligations.DecodeIsPure : Prop :=
  ∀ (s t : State) (tag : Byte) (rest : List Byte), s.Holds (tag :: rest) → t.Holds (tag :: rest) →
    ∃ ev, exec (decodeTag tag) s = .next { s with events := s.events ++ [ev] } ∧
      exec (decodeTag tag) t = .next { t with events := t.events ++ [ev] }

/-- The FRAMER goes on after any event, TRUNCATED included, as after any other: a step appends at most one
event, and never reads the events before it (R155). -/
def Obligations.EventsNeverInfluenceSteps : Prop :=
  ∀ (s t : State) (b : Byte) (evs : List Event), framerStep b s = .next t →
    ∃ new : List Event, new.length ≤ 1 ∧ t.events = s.events ++ new ∧
      framerStep b { s with events := evs } = .next { t with events := evs ++ new }

/-! ### The extractions, on a payload `83 b1 … b7` and a sample area -/

/-- EX_TYPE (R113).
The same where FR_EMIT is not selected: the model's choice, log 13. -/
def Obligations.ExTypeExtractsTag : Prop :=
  ∀ (s : State) (b1 b2 b3 b4 b5 b6 b7 : Byte) (area : List Byte),
    s.Holds (0x83 :: b1 :: b2 :: b3 :: b4 :: b5 :: b6 :: b7 :: area) →
    exec .exType s = .next { s with draft := { s.draft with frameType := 0x83 } }

/-- EX_SRC16 (R114).
The same where FR_EMIT is not selected: the model's choice, log 13. -/
def Obligations.ExSrc16ExtractsAddress : Prop :=
  ∀ (s : State) (b1 b2 b3 b4 b5 b6 b7 : Byte) (area : List Byte),
    s.Holds (0x83 :: b1 :: b2 :: b3 :: b4 :: b5 :: b6 :: b7 :: area) →
    exec .exSrc16 s = .next { s with draft := { s.draft with sourceAddress16 := b1 ++ b2 } } ∧
      (b1 ++ b2 : Half) = (b1.setWidth 16 <<< 8) ||| b2.setWidth 16

/-- EX_RSSI (R115).
The same where FR_EMIT is not selected: the model's choice, log 13. -/
def Obligations.ExRssiExtractsSignal : Prop :=
  ∀ (s : State) (b1 b2 b3 b4 b5 b6 b7 : Byte) (area : List Byte),
    s.Holds (0x83 :: b1 :: b2 :: b3 :: b4 :: b5 :: b6 :: b7 :: area) →
    exec .exRssi s = .next { s with draft := { s.draft with signalStrength := b3 } }

/-- EX_ABCAST (R116): bit 1 of the option byte.
The same where FR_EMIT is not selected: the model's choice, log 13. -/
def Obligations.ExAbcastExtractsBitOne : Prop :=
  ∀ (s : State) (b1 b2 b3 b4 b5 b6 b7 : Byte) (area : List Byte),
    s.Holds (0x83 :: b1 :: b2 :: b3 :: b4 :: b5 :: b6 :: b7 :: area) →
    exec .exAbcast s =
      .next { s with draft := { s.draft with isAddressBroadcast := b4.getLsbD 1 } }

/-- EX_PBCAST (R117): bit 2 of the option byte.
The same where FR_EMIT is not selected: the model's choice, log 13. -/
def Obligations.ExPbcastExtractsBitTwo : Prop :=
  ∀ (s : State) (b1 b2 b3 b4 b5 b6 b7 : Byte) (area : List Byte),
    s.Holds (0x83 :: b1 :: b2 :: b3 :: b4 :: b5 :: b6 :: b7 :: area) →
    exec .exPbcast s =
      .next { s with draft := { s.draft with isPanBroadcast := b4.getLsbD 2 } }

/-- EX_NSETS (R118).
The same where FR_EMIT is not selected: the model's choice, log 13. -/
def Obligations.ExNsetsExtractsCount : Prop :=
  ∀ (s : State) (b1 b2 b3 b4 b5 b6 b7 : Byte) (area : List Byte),
    s.Holds (0x83 :: b1 :: b2 :: b3 :: b4 :: b5 :: b6 :: b7 :: area) →
    exec .exNsets s = .next { s with draft := { s.draft with totalSampleSets := b5 } }

/-- EX_CHIND (R119): both indicator bytes, copied raw.
The same where FR_EMIT is not selected: the model's choice, log 13. -/
def Obligations.ExChindCopiesIndicators : Prop :=
  ∀ (s : State) (b1 b2 b3 b4 b5 b6 b7 : Byte) (area : List Byte),
    s.Holds (0x83 :: b1 :: b2 :: b3 :: b4 :: b5 :: b6 :: b7 :: area) →
    exec .exChind s = .next { s with draft :=
      { s.draft with channelIndicatorHigh := b6, channelIndicatorLow := b7 } }

/-- EX_CHMASK (R130, decisions D12 and D24; R132): channel c is enabled iff bit c + 1 of the high indicator
byte is 1, bits 0 and 7 do not count, and the count is the number of enabled channels.
The same where FR_EMIT is not selected: the model's choice, log 13. -/
def Obligations.ExChmaskExtractsMask : Prop :=
  ∀ (s : State) (b1 b2 b3 b4 b5 b6 b7 : Byte) (area : List Byte),
    s.Holds (0x83 :: b1 :: b2 :: b3 :: b4 :: b5 :: b6 :: b7 :: area) →
    ∃ (en : BitVec 6) (n : BitVec 3),
      exec .exChmask s = .next { s with draft :=
        { s.draft with enabledChannels := en, analogChannelCount := n } } ∧
      (∀ c, c < 6 → en.getLsbD c = b6.getLsbD (c + 1)) ∧
      n.toNat = (channelList en).length ∧ n.toNat ≤ 6

/-- EX_SAMPLES (R134, R135, R136): S sample sets; slot c of set k is the big-endian pair at
`8 + 2·n·k + 2·rank(c)` where channel c is enabled, and NODATA where it is not.
The same where FR_EMIT is not selected: the model's choice, log 13. -/
def Obligations.ExSamplesUnpacksReadings : Prop :=
  ∀ (s : State) (b1 b2 b3 b4 b5 b6 b7 : Byte) (area : List Byte),
    let P := 0x83 :: b1 :: b2 :: b3 :: b4 :: b5 :: b6 :: b7 :: area
    let n := popcount (channelMask b6)
    s.Holds P → 8 + 2 * n * b5.toNat ≤ P.length →
    ∃ sets : List SampleSet,
      exec .exSamples s = .next { s with draft := { s.draft with sampleSets := sets } } ∧
      sets.length = b5.toNat ∧
      ∀ (k c : Nat) (_ : k < sets.length) (_ : c < 6),
        let off := 8 + 2 * n * k + 2 * popcount ((channelMask b6).extractLsb' 0 c)
        (sets[k])[c] = if b6.getLsbD (c + 1) then .value (P.getD off 0 ++ P.getD (off + 1) 0)
          else Slot.noData

/-- EX_DIAG (R121, decision D9): the exact sum of the header bytes, which fits in 11 bits.
The same where FR_EMIT is not selected: the model's choice, log 13. -/
def Obligations.ExDiagSumsHeader : Prop :=
  ∀ (s : State) (b1 b2 b3 b4 b5 b6 b7 : Byte) (area : List Byte),
    s.Holds (0x83 :: b1 :: b2 :: b3 :: b4 :: b5 :: b6 :: b7 :: area) →
    ∃ sum : BitVec 11,
      exec .exDiag s = .next { s with draft := { s.draft with diagnosticChecksum := sum } } ∧
      sum.toNat = 131 + b1.toNat + b2.toNat + b3.toNat + b4.toNat + b5.toNat + b6.toNat + b7.toNat

/-- Where its row's condition fails, an operation of the DECODER stops by name (guard column of
opcode_table.json; that it stops there is the model's choice, log 5): an extraction outside an analog report with
a whole header, EX_SAMPLES also where N is below the required length, DEC_ANALOG on another tag than 0x83, and
DEC_RAW on another tag than its own or on 0x83.
The same where FR_EMIT is not selected: the model's choice, log 13. -/
def Obligations.DecoderOperationsStopUnselected : Prop :=
  (∀ (s : State) (t : Byte) (i : Instr), i ∈ extractions → s.pbufRead 0 = some t →
    0 < s.dlen.toNat → (t ≠ 0x83 ∨ s.dlen.toNat < 8) → exec i s = .fault .notSelected) ∧
  (∀ (s : State) (sets chH : Byte), s.pbufRead 0 = some 0x83 → s.pbufRead 5 = some sets →
    s.pbufRead 6 = some chH → 8 ≤ s.dlen.toNat →
    s.dlen.toNat < 8 + 2 * popcount (channelMask chH) * sets.toNat →
    exec .exSamples s = .fault .notSelected) ∧
  (∀ (s : State) (t : Byte), s.pbufRead 0 = some t → 0 < s.dlen.toNat → t ≠ 0x83 →
    exec .decAnalog s = .fault .notSelected) ∧
  ∀ (s : State) (t tag : Byte), s.pbufRead 0 = some t → 0 < s.dlen.toNat → (t ≠ tag ∨ tag = 0x83) →
    exec (.decRaw tag) s = .fault .notSelected

/-- An operation of the DECODER faults on every byte it reads that PBUF does not hold, at or above PLEN or never
written (R46, decision D2; 93_implementation_defined.md U1 to U3): all on byte 0; DEC_RAW on any of its N bytes;
an extraction on any byte of its place; EX_SAMPLES and DEC_ANALOG on bytes 5 and 6, and where N reaches the
required length, EX_SAMPLES on any byte of the sample area and DEC_ANALOG on any byte below that length.
The same where FR_EMIT is not selected: the model's choice, log 13. -/
def Obligations.UnreadablePayloadFaults : Prop :=
  ∀ s : State,
    (∀ (tag : Byte) (i : Instr), i ∈ Instr.decAnalog :: .decRaw tag :: extractions →
      s.pbufRead 0 = none → exec i s = .fault .pbufNoValue) ∧
    (∀ (tag : Byte) (a : Nat), s.pbufRead 0 = some tag → tag ≠ 0x83 → a < s.dlen.toNat →
      s.pbufRead a = none → exec (.decRaw tag) s = .fault .pbufNoValue) ∧
    (s.pbufRead 0 = some 0x83 → 8 ≤ s.dlen.toNat →
      (∀ (i : Instr) (f : Field) (last a : Nat), i ∈ extractions → fieldOf i = some f →
        f.last = some last → f.first ≤ a → a ≤ last → s.pbufRead a = none →
        exec i s = .fault .pbufNoValue) ∧
      (s.pbufRead 5 = none ∨ s.pbufRead 6 = none →
        exec .exSamples s = .fault .pbufNoValue ∧ exec .decAnalog s = .fault .pbufNoValue) ∧
      (∀ (sets chH : Byte) (a : Nat), s.pbufRead 5 = some sets → s.pbufRead 6 = some chH →
        8 + 2 * popcount (channelMask chH) * sets.toNat ≤ s.dlen.toNat →
        a < 8 + 2 * popcount (channelMask chH) * sets.toNat → s.pbufRead a = none →
        exec .decAnalog s = .fault .pbufNoValue ∧
          (8 ≤ a → exec .exSamples s = .fault .pbufNoValue)))

/-- The sample area is tiled by the readings (R133, R134): the offset's formula over the rank, which lies in
0 to n - 1; set k takes the 2n bytes from `8 + 2·n·k`, its enabled
channels in ascending order, each reading two bytes after the one before, and the last reading of the last
set ends at the required length. -/
def Obligations.SampleAreaIsTiled : Prop :=
  ∀ (en : BitVec 6) (S k c : Nat), k < S → c < 6 → channelEnabled en c = true →
    (List.range c).countP (channelEnabled en) < popcount en ∧
    sampleOffset en k c =
      8 + popcount en * k * 2 + (List.range c).countP (channelEnabled en) * 2 ∧
    8 + 2 * popcount en * k ≤ sampleOffset en k c ∧
    sampleOffset en k c + 2 ≤ 8 + 2 * popcount en * (k + 1) ∧
    sampleOffset en k c + 2 ≤ 8 + 2 * popcount en * S ∧
    (∀ c', c < c' → c' < 6 → channelEnabled en c' = true →
      (∀ d, c < d → d < c' → channelEnabled en d = false) →
      sampleOffset en k c' = sampleOffset en k c + 2) ∧
    ((∀ d, c < d → d < 6 → channelEnabled en d = false) →
      sampleOffset en k c + 2 = 8 + 2 * popcount en * (k + 1))

/-- The packed form of a slot (R137, decision D5): bit 16 is 1 for VALUE and 0 for NODATA, bits 15 to 0 hold
the reading or 0, and no two slots share a form. -/
def Obligations.PackedSlotsAreFaithful : Prop :=
  (∀ x : Slot, unpackSlot x.pack = x) ∧ Slot.noData.pack = 0 ∧
    ∀ v : Half, (Slot.value v).pack.toNat = 0x10000 + v.toNat

/-! ### The whole machine -/

/-- The invariant of R24, R27 and R46 is kept by every step (R27: derived). -/
def Obligations.StepKeepsInvariant : Prop :=
  ∀ s t : State, s.Inv → step s = .next t → t.Inv

/-- PBUF keeps its canonical form, from every state that has it, reachable or not (R45, R46). -/
def Obligations.StepKeepsMemoryCanonical : Prop :=
  ∀ s t : State, Memory.wf s.mem → step s = .next t → Memory.wf t.mem

/-- Where the invariant holds, every step goes on: no byte is illegal or traps, and no read is out of
bounds (R65, R139). -/
def Obligations.StepNeverStops : Prop :=
  ∀ s : State, s.Inv → goesOn (step s)

/-- In every state, reachable or not, a step stops for one reason only, a payload byte that holds no value:
the operation a step executes is always selected (R75) and its store is always inside PBUF (R45). -/
def Obligations.StepStopsOnlyOnMissingByte : Prop :=
  ∀ s : State, goesOn (step s) ∨ step s = .fault .pbufNoValue

/-- The machine's operation selection and meanings compute the step function of R85 where the invariant
holds (R87: derived; R85 rests on decision D19). -/
def Obligations.StepRefinesFramerPseudocode : Prop :=
  ∀ (s : State) (b : Byte), s.Inv → framerStep b s = .next (Reference.framerStep b s)

/-- Every ANALOG record ever emitted is lane consistent (R138: derived). -/
def Obligations.EmittedRecordsStayConsistent : Prop :=
  ∀ s t : State, (∀ e ∈ s.events, e.consistent) → step s = .next t → ∀ e ∈ t.events, e.consistent

/-- Every event ever emitted is legal: a TRUNCATED one is of type 0x83 with an actual length below the
required one, which lies in 8 to 3068; a RAW one holds at least one byte and not the tag first (R76, R120,
R150, R156; derived). -/
def Obligations.EmittedEventsStayLegal : Prop :=
  ∀ s t : State, (∀ e ∈ s.events, e.legal) → step s = .next t → ∀ e ∈ t.events, e.legal

/-- No step touches the draft record, which is the model's own field (R31, R124; log 4). -/
def Obligations.StepLeavesDraft : Prop :=
  ∀ s t : State, step s = .next t → t.draft = s.draft

/-- Splitting a byte sequence into chunks changes neither the events nor the final state (R98: derived). -/
def Obligations.ChunkBoundariesDoNotMatter : Prop :=
  ∀ (chunks : List (List Byte)) (s : State), ingestChunks chunks s = ingest chunks.flatten s

/-- Delivering a chunk to the stream and stepping once a byte is ingesting it (R35, decision D26; the stream:
log 3). -/
def Obligations.SteppingDeliveredBytesIsIngest : Prop :=
  ∀ (chunk : List Byte) (s : State), s.input = [] →
    Sys2Proof.core.run chunk.length (s.deliver chunk) = ingest chunk s

/-- A deliverable frame, from any state, emits exactly one event, `Decode` of its payload, whatever its
checksum byte (R97: derived; R93). -/
def Obligations.DeliverableFrameEmitsOnce : Prop :=
  ∀ (P : List Byte) (ck : Byte) (s : State), deliverable P ck →
    ∃ t, ingest (wireFrame P ck) s = .next t ∧
      t.events = s.events ++ [Reference.decodeEvent P] ∧
      t.pos.toNat = P.length + 4 ∧ t.dlen.toNat = P.length ∧ t.plen.toNat = P.length ∧
      (∀ i, t.pbufRead i = P[i]?) ∧ t.input = s.input ∧ t.draft = s.draft

/-- k deliverable frames, with garbage before the first and after each, yield exactly their k events, in
stream order (R100: derived). -/
def Obligations.BackToBackFramesEmitInOrder : Prop :=
  ∀ (garbage : List Byte) (frames : List (List Byte × Byte × List Byte)),
    (∀ b ∈ garbage, b ≠ 0x7E) →
    (∀ f ∈ frames, deliverable f.1 f.2.1 ∧ ∀ b ∈ f.2.2, b ≠ 0x7E) →
    ∃ t, run (garbage ++ (frames.map fun f => wireFrame f.1 f.2.1 ++ f.2.2).flatten) = .next t ∧
      t.events = frames.map fun f => Reference.decodeEvent f.1

/-- Resynchronisation (R99): a 0x7E at any offset abandons the frame in progress and begins a new one: the
next byte is at offset 1, and what follows does not depend on POS, DLEN, PLEN or PBUF as they were. -/
def Obligations.MarkerResynchronises : Prop :=
  ∀ (s : State) (pos : Position) (dlen plen : Half) (mem : Memory) (bytes : List Byte),
    framerStep 0x7E s = .next { s with pos := 1, dlen := 0, plen := 0, mem := [] } ∧
    ingest (0x7E :: bytes) { s with pos := pos, dlen := dlen, plen := plen, mem := mem } =
      ingest (0x7E :: bytes) s

/-- An abandoned frame produces no event and no error (R101): any part of a frame without its checksum byte,
followed by a marker. -/
def Obligations.AbandonedFrameEmitsNothing : Prop :=
  ∀ (P : List Byte) (ck : Byte) (k : Nat) (s : State), deliverable P ck → k ≤ P.length + 3 →
    ingest ((wireFrame P ck).take k ++ [0x7E]) s =
      .next { s with pos := 1, dlen := 0, plen := 0, mem := [] }

/-- After a zero-length header no byte but a marker has an effect (R96: derived). -/
def Obligations.ZeroLengthHeaderIsInert : Prop :=
  ∀ (bytes : List Byte) (s : State), (∀ b ∈ bytes, b ≠ 0x7E) →
    ∃ t, ingest (0x7E :: 0x00 :: 0x00 :: bytes) s = .next t ∧ t.events = s.events ∧ t.dlen = 0 ∧
      t.plen = 0 ∧ (∀ a, t.pbufRead a = none) ∧ 3 ≤ t.pos.toNat

/-- Bytes before the first marker have no effect at all on a new instance (R171: derived, decision D2). -/
def Obligations.IdleReceiverIgnoresBytes : Prop :=
  ∀ bytes : List Byte, (∀ b ∈ bytes, b ≠ 0x7E) → run bytes = .next State.reset

/-- The declared length is `hi ‖ lo` once both bytes are consumed, and stays so until the next marker (R24:
derived). -/
def Obligations.DeclaredLengthStays : Prop :=
  ∀ (hi lo : Byte) (bytes : List Byte) (s : State), hi ≠ 0x7E → lo ≠ 0x7E →
    (∀ b ∈ bytes, b ≠ 0x7E) →
    ∃ t, ingest (0x7E :: hi :: lo :: bytes) s = .next t ∧ t.dlen = hi ++ lo

/-- The phases (R102: derived): the operation a byte other than the marker selects in each, and the phase it
leads to. -/
def Obligations.PhasesFollowTable : Prop :=
  ∀ (s t : State) (b : Byte), s.Inv → b ≠ 0x7E → framerStep b s = .next t →
    match s.phase with
    | .lenH => s.select b = .frLenh b ∧ t.phase = .lenL
    | .lenL => s.select b = .frLenl b ∧ t.phase = if t.dlen = 0 then .inert else .payload
    | .payload =>
      s.select b = .frPay b ∧ t.phase = if t.pos.toNat = t.dlen.toNat + 3 then .cksum else .payload
    | .cksum => s.select b = .frEmit b ∧ t.phase = .inert
    | .inert => s.pos ≠ 0 → s.select b = .frSkip b ∧ t.phase = .inert

/-- Instances are isolated (R160, decision D15; R170, decision D2): creating one adds an instance in the reset
state and leaves every other as it was; ingesting on one leaves every other as it was, and its own result is
that of ingesting alone. -/
def Obligations.InstancesAreIsolated : Prop :=
  (∀ m : Platform,
    m.create.receivers.length = m.receivers.length + 1 ∧
    m.create.receivers[m.receivers.length]? = some State.reset ∧
    ∀ j, j < m.receivers.length → m.create.receivers[j]? = m.receivers[j]?) ∧
  ∀ (m m' : Platform) (k : Nat) (chunk : List Byte), m.ingest k chunk = some m' →
    m'.receivers.length = m.receivers.length ∧
    (∀ j, j ≠ k → m'.receivers[j]? = m.receivers[j]?) ∧
    ∃ s t, m.receivers[k]? = some s ∧ m'.receivers[k]? = some t ∧
      Sys2Proof.Machine.ingest chunk s = .next t
end

