-- ==== Sys2Proof/Laws/State.lean ====
section
/-!
SUPPORT. One lemma a field for each update of State, so that no proof unfolds a record update.
-/

namespace Sys2Proof.Machine

@[simp] theorem State.advance_pos (s : State) : s.advance.pos = sat17 (s.pos.toNat + 1) := rfl
@[simp] theorem State.advance_dlen (s : State) : s.advance.dlen = s.dlen := rfl
@[simp] theorem State.advance_plen (s : State) : s.advance.plen = s.plen := rfl
@[simp] theorem State.advance_mem (s : State) : s.advance.mem = s.mem := rfl
@[simp] theorem State.advance_events (s : State) : s.advance.events = s.events := rfl
@[simp] theorem State.advance_input (s : State) : s.advance.input = s.input := rfl
@[simp] theorem State.advance_draft (s : State) : s.advance.draft = s.draft := rfl

@[simp] theorem State.emit_pos (s : State) (ev : Event) : (s.emit ev).pos = s.pos := rfl
@[simp] theorem State.emit_dlen (s : State) (ev : Event) : (s.emit ev).dlen = s.dlen := rfl
@[simp] theorem State.emit_plen (s : State) (ev : Event) : (s.emit ev).plen = s.plen := rfl
@[simp] theorem State.emit_mem (s : State) (ev : Event) : (s.emit ev).mem = s.mem := rfl
@[simp] theorem State.emit_events (s : State) (ev : Event) :
    (s.emit ev).events = s.events ++ [ev] := rfl
@[simp] theorem State.emit_input (s : State) (ev : Event) : (s.emit ev).input = s.input := rfl
@[simp] theorem State.emit_draft (s : State) (ev : Event) : (s.emit ev).draft = s.draft := rfl

@[simp] theorem State.pbufClear_pos (s : State) : s.pbufClear.pos = s.pos := rfl
@[simp] theorem State.pbufClear_dlen (s : State) : s.pbufClear.dlen = s.dlen := rfl
@[simp] theorem State.pbufClear_plen (s : State) : s.pbufClear.plen = s.plen := rfl
@[simp] theorem State.pbufClear_mem (s : State) : s.pbufClear.mem = [] := rfl
@[simp] theorem State.pbufClear_events (s : State) : s.pbufClear.events = s.events := rfl
@[simp] theorem State.pbufClear_input (s : State) : s.pbufClear.input = s.input := rfl
@[simp] theorem State.pbufClear_draft (s : State) : s.pbufClear.draft = s.draft := rfl

@[simp] theorem State.deliver_pos (s : State) (c : List Byte) : (s.deliver c).pos = s.pos := rfl
@[simp] theorem State.deliver_dlen (s : State) (c : List Byte) : (s.deliver c).dlen = s.dlen := rfl
@[simp] theorem State.deliver_plen (s : State) (c : List Byte) : (s.deliver c).plen = s.plen := rfl
@[simp] theorem State.deliver_mem (s : State) (c : List Byte) : (s.deliver c).mem = s.mem := rfl
@[simp] theorem State.deliver_events (s : State) (c : List Byte) :
    (s.deliver c).events = s.events := rfl
@[simp] theorem State.deliver_input (s : State) (c : List Byte) :
    (s.deliver c).input = s.input ++ c := rfl
@[simp] theorem State.deliver_draft (s : State) (c : List Byte) : (s.deliver c).draft = s.draft := rfl

end Sys2Proof.Machine
end

