-- ==== Sys2Proof/Laws/Memory.lean ====
section
/-!
SUPPORT. The laws of PBUF: read after write, the canonical form kept by every memory operation and held at
reset, and what `pbufRead` and `pbufWrite` do (spec 20_memory.md R45, R46).
-/

namespace Sys2Proof.Machine

@[simp] theorem Memory.read_nil (a : Nat) : Memory.read [] a = none := rfl

theorem Memory.read_write_same (m : Memory) (a : Nat) (v : Byte) :
    Memory.read (Memory.write m a v) a = some v := by
  induction m with
  | nil => simp [Memory.write, Memory.read]
  | cons c m ih =>
    obtain ⟨k, x⟩ := c
    simp only [Memory.write]
    split
    · simp [Memory.read]
    · split
      · simp [Memory.read]
      · simp [Memory.read, *]

theorem Memory.read_write_other (m : Memory) (a a' : Nat) (v : Byte) (h : a' ≠ a) :
    Memory.read (Memory.write m a v) a' = Memory.read m a' := by
  induction m with
  | nil => simp [Memory.write, Memory.read, h]
  | cons c m ih =>
    obtain ⟨k, x⟩ := c
    simp only [Memory.write]
    split
    · simp [Memory.read, h]
    · split
      · subst_vars
        simp [Memory.read, h]
      · simp [Memory.read, ih]

/-- The offsets a write leaves listed: those listed before, and its own. -/
theorem Memory.mem_write {m : Memory} {a : Nat} {v : Byte} {c : Host.Cell}
    (h : c ∈ Memory.write m a v) : c = (a, v) ∨ c ∈ m := by
  induction m with
  | nil => simpa [Memory.write] using h
  | cons d m ih =>
    obtain ⟨k, x⟩ := d
    simp only [Memory.write] at h
    split at h
    · simpa using h
    · split at h
      · simp only [List.mem_cons] at h ⊢
        tauto
      · simp only [List.mem_cons] at h ⊢
        rcases h with h | h
        · exact .inr (.inl h)
        · exact (ih h).imp_right .inr

/-- A write inside PBUF keeps the canonical form. -/
theorem Memory.write_wf {m : Memory} {a : Nat} {v : Byte} (hm : Memory.wf m)
    (ha : a < Config.bufCap) : Memory.wf (Memory.write m a v) := by
  refine ⟨?_, fun c hc => ?_⟩
  · obtain ⟨hs, -⟩ := hm
    induction m with
    | nil => simp [Memory.write]
    | cons d m ih =>
      obtain ⟨k, x⟩ := d
      rw [List.pairwise_cons] at hs
      obtain ⟨hk, hs⟩ := hs
      simp only [Memory.write]
      split
      · rename_i hlt
        refine List.pairwise_cons.2 ⟨fun c hc => ?_, List.pairwise_cons.2 ⟨hk, hs⟩⟩
        rcases List.mem_cons.1 hc with rfl | hc
        · exact hlt
        · exact lt_trans hlt (hk c hc)
      · split
        · subst_vars
          exact List.pairwise_cons.2 ⟨hk, hs⟩
        · refine List.pairwise_cons.2 ⟨fun c hc => ?_, ih hs⟩
          rcases Memory.mem_write hc with rfl | hc
          · show k < a
            omega
          · exact hk c hc
  · rcases Memory.mem_write hc with rfl | hc
    · exact ha
    · exact hm.2 c hc

theorem State.reset_mem_wf : Memory.wf State.reset.mem := by decide

theorem State.pbufClear_wf (s : State) : Memory.wf s.pbufClear.mem := State.reset_mem_wf

/-- `pbufWrite` answers a state only with one byte written, at an offset of PBUF. -/
theorem State.pbufWrite_ok {s t : State} {a : Nat} {v : Byte} (h : s.pbufWrite a v = .ok t) :
    a < Config.bufCap ∧ t = { s with mem := Memory.write s.mem a v } := by
  simp only [State.pbufWrite] at h
  split at h
  · cases h; exact ⟨‹_›, rfl⟩
  · cases h

theorem State.pbufWrite_of_lt (s : State) {a : Nat} (v : Byte) (h : a < Config.bufCap) :
    s.pbufWrite a v = .ok { s with mem := Memory.write s.mem a v } := by
  simp [State.pbufWrite, h]

theorem State.pbufWrite_wf {s t : State} {a : Nat} {v : Byte} (hs : Memory.wf s.mem)
    (h : s.pbufWrite a v = .ok t) : Memory.wf t.mem := by
  obtain ⟨ha, rfl⟩ := State.pbufWrite_ok h
  exact Memory.write_wf hs ha

/-- The memory that `placeTableWord` puts the DECODER's tag into is canonical. -/
theorem tagPayload_wf (t : Byte) : Memory.wf (tagPayload t) := by
  simp [tagPayload, Memory.wf, Config.hdrLen, Config.bufCap, List.range_succ]

theorem State.pbufRead_of_ge {s : State} {a : Nat} (h : s.plen.toNat ≤ a) : s.pbufRead a = none := by
  simp [State.pbufRead, Nat.not_lt.2 h]

theorem State.pbufRead_of_lt {s : State} {a : Nat} (h : a < s.plen.toNat) :
    s.pbufRead a = Memory.read s.mem a := by
  simp [State.pbufRead, h]

@[simp] theorem State.pbufRead_advance (s : State) (a : Nat) :
    s.advance.pbufRead a = s.pbufRead a := rfl

@[simp] theorem State.pbufRead_emit (s : State) (ev : Event) (a : Nat) :
    (s.emit ev).pbufRead a = s.pbufRead a := rfl

/-! ### Memories that list exactly the offsets 0 to n - 1 -/

/-- An offset is listed exactly when it reads as a value. -/
theorem Memory.read_isSome (m : Memory) (a : Nat) :
    (Memory.read m a).isSome = true ↔ a ∈ m.map Prod.fst := by
  induction m with
  | nil => simp
  | cons c m ih =>
    obtain ⟨k, x⟩ := c
    by_cases h : a = k <;> simp [Memory.read, h, ih]

/-- Writing above every listed offset appends. -/
theorem Memory.write_above (m : Memory) (a : Nat) (v : Byte) (h : ∀ k ∈ m.map Prod.fst, k < a) :
    Memory.write m a v = m ++ [(a, v)] := by
  induction m with
  | nil => rfl
  | cons c m ih =>
    obtain ⟨k, x⟩ := c
    have hk : k < a := h k (by simp)
    rw [Memory.write, if_neg (by omega), if_neg (by omega), ih fun j hj => h j (by simp [hj])]
    rfl

/-- Appending at the fill count keeps the listed offsets an initial range. -/
theorem Memory.write_range {m : Memory} {n : Nat} (h : m.map Prod.fst = List.range n) (v : Byte) :
    Memory.write m n v = m ++ [(n, v)] ∧ (Memory.write m n v).map Prod.fst = List.range (n + 1) := by
  have hw : Memory.write m n v = m ++ [(n, v)] :=
    Memory.write_above m n v fun k hk => by rw [h] at hk; exact List.mem_range.1 hk
  exact ⟨hw, by rw [hw, List.range_succ]; simp [h]⟩

end Sys2Proof.Machine
end

