-- ==== Sys2Proof/Laws/Operands.lean ====
section
/-!
SUPPORT. What the operand forms compute: bounds of the count, the ranks and the required length, the saturating
position as a number (spec 00_scope.md R9, 41_decoder.md R120, 42_sample_extractor.md R132, R133, R139).
-/

namespace Sys2Proof.Machine

@[simp] theorem sat17_toNat (x : Nat) : (sat17 x).toNat = min x Config.posMax := by
  simp only [sat17, BitVec.toNat_ofNat, Config.posMax]
  omega

theorem popcount_le {w : Nat} (v : BitVec w) : popcount v ≤ w := by
  simpa [popcount] using List.countP_le_length (p := fun k => v.getLsbD k) (l := List.range w)

/-- The count fits in the 3 bits of analogChannelCount (R132). -/
theorem popcount_toNat (en : BitVec 6) : (BitVec.ofNat 3 (popcount en)).toNat = popcount en := by
  have := popcount_le en
  simp only [BitVec.toNat_ofNat]
  omega

/-- `rank c` counts the enabled channels below `c`. -/
theorem rank_eq_countP (en : BitVec 6) (c : Nat) : rank en c = (List.range c).countP (channelEnabled en) := by
  unfold rank popcount channelEnabled
  refine List.countP_congr fun k hk => ?_
  have hk := List.mem_range.1 hk
  simp [hk]

theorem popcount_eq_rank (en : BitVec 6) : popcount en = rank en 6 := by
  rw [rank_eq_countP]; rfl

theorem rank_succ (en : BitVec 6) (c : Nat) :
    rank en (c + 1) = rank en c + if channelEnabled en c then 1 else 0 := by
  simp [rank_eq_countP, List.range_succ, List.countP_append, List.countP_singleton]

theorem rank_mono (en : BitVec 6) {c d : Nat} (h : c ≤ d) : rank en c ≤ rank en d := by
  induction d, h using Nat.le_induction with
  | base => exact le_rfl
  | succ d _ ih => rw [rank_succ]; omega

/-- The rank of an enabled channel lies in 0 to n - 1 (R133). -/
theorem rank_lt_popcount {en : BitVec 6} {c : Nat} (hc : c < 6) (h : channelEnabled en c = true) :
    rank en c < popcount en := by
  have := rank_mono en (Nat.succ_le_of_lt hc)
  rw [Nat.succ_eq_add_one, rank_succ, if_pos h, ← popcount_eq_rank] at this
  omega

/-- Every reading of a set below `S` ends within the required length (R139). -/
theorem sampleOffset_bound {en : BitVec 6} {S k c : Nat} (hk : k < S) (hc : c < 6)
    (h : channelEnabled en c = true) :
    sampleOffset en k c + 2 ≤ Config.hdrLen + 2 * popcount en * S := by
  have hr := rank_lt_popcount hc h
  have hm : 2 * popcount en * (k + 1) ≤ 2 * popcount en * S := Nat.mul_le_mul_left _ hk
  rw [Nat.mul_succ] at hm
  unfold sampleOffset
  omega

/-- Every rank below the count is the rank of an enabled channel (R133). -/
theorem exists_rank {en : BitVec 6} {r : Nat} (hr : r < popcount en) :
    ∃ c, c < 6 ∧ channelEnabled en c = true ∧ rank en c = r := by
  have key : ∀ d, r < rank en d → ∃ c, c < d ∧ channelEnabled en c = true ∧ rank en c = r := by
    intro d
    induction d with
    | zero => intro h; simp [rank_eq_countP] at h
    | succ d ih =>
      intro h
      by_cases hd : r < rank en d
      · obtain ⟨c, hc, hce⟩ := ih hd
        exact ⟨c, by omega, hce⟩
      · rw [rank_succ] at h
        by_cases he : channelEnabled en d = true
        · rw [if_pos he] at h
          exact ⟨d, by omega, he, by omega⟩
        · rw [if_neg he] at h
          omega
  exact key 6 (by rwa [← popcount_eq_rank])

/-- Every byte of the sample area belongs to the reading of an enabled channel of one of its sets (R134). -/
theorem exists_sampleOffset {en : BitVec 6} {S a : Nat} (h8 : Config.hdrLen ≤ a)
    (ha : a < Config.hdrLen + 2 * popcount en * S) :
    ∃ k c, k < S ∧ c < 6 ∧ channelEnabled en c = true ∧
      (a = sampleOffset en k c ∨ a = sampleOffset en k c + 1) := by
  have hn : 0 < 2 * popcount en := by
    rcases Nat.eq_zero_or_pos (2 * popcount en) with h | h
    · rw [h] at ha; omega
    · exact h
  obtain ⟨d, rfl⟩ := Nat.exists_eq_add_of_le h8
  have hd : d < 2 * popcount en * S := by omega
  have hk : d / (2 * popcount en) < S := Nat.div_lt_of_lt_mul hd
  have hm : d % (2 * popcount en) < 2 * popcount en := Nat.mod_lt _ hn
  have hsplit := Nat.div_add_mod d (2 * popcount en)
  obtain ⟨c, hc, he, hr⟩ := exists_rank (en := en) (r := d % (2 * popcount en) / 2) (by omega)
  refine ⟨d / (2 * popcount en), c, hk, hc, he, ?_⟩
  unfold sampleOffset
  rw [hr]
  omega

/-- The required length lies in 8 to 3068 (R120). -/
theorem requiredLength_range (en : BitVec 6) (sets : Byte) :
    8 ≤ requiredLength en sets ∧ requiredLength en sets ≤ 3068 := by
  have hn := popcount_le en
  have hs := sets.isLt
  have hp : popcount en * sets.toNat ≤ 6 * 255 := Nat.mul_le_mul hn (by omega)
  unfold requiredLength Config.hdrLen
  rw [Nat.mul_assoc]
  omega

/-- The required length fits in the 16 bits that a TRUNCATED event records (R150). -/
theorem requiredLength_toNat (en : BitVec 6) (sets : Byte) :
    (BitVec.ofNat 16 (requiredLength en sets)).toNat = requiredLength en sets := by
  have := requiredLength_range en sets
  simp only [BitVec.toNat_ofNat]
  omega

end Sys2Proof.Machine
end

