-- ==== Sys2Proof/Laws/Ops.lean ====
section
/-!
SUPPORT. One lemma for each shared operation that says everything it can do: sequencing, payload reads, filling
the draft, fetching a byte, selecting an operation.
-/

namespace Sys2Proof.Machine

/-! ### Sequencing -/

@[simp] theorem andThen_next (s : State) (f : State → Result) : andThen (.next s) f = f s := rfl
@[simp] theorem andThen_fault (e : Fault) (f : State → Result) :
    andThen (.fault e) f = .fault e := rfl
@[simp] theorem andThen_refused (e : Refusal) (f : State → Result) :
    andThen (.refused e) f = .refused e := rfl

/-- A sequence answers a state only where both parts do. -/
theorem andThen_eq_next {r : Result} {f : State → Result} {t : State} :
    andThen r f = .next t ↔ ∃ s, r = .next s ∧ f s = .next t := by
  cases r <;> simp

theorem andThen_assoc (r : Result) (f g : State → Result) :
    andThen (andThen r f) g = andThen r fun s => andThen (f s) g := by
  cases r <;> rfl

@[simp] theorem runAll_nil (s : State) : runAll [] s = .next s := rfl
@[simp] theorem runAll_cons (f : State → Result) (fs : List (State → Result)) (s : State) :
    runAll (f :: fs) s = andThen (f s) (runAll fs) := rfl

/-! ### Payload reads -/

/-- A payload read answers a value only inside the payload, where PBUF holds it. -/
theorem State.byteAt_ok {s : State} {i : Nat} {v : Byte} :
    s.byteAt i = .ok v ↔ i < s.payloadLength ∧ s.pbufRead i = some v := by
  unfold State.byteAt
  split
  · cases h : s.pbufRead i <;> simp [*]
  · simp [*]

/-- The one way a payload read stops. -/
theorem State.byteAt_error {s : State} {i : Nat} {f : Fault} (h : s.byteAt i = .error f) :
    f = .pbufNoValue := by
  unfold State.byteAt at h
  split at h
  · split at h <;> cases h
    rfl
  · cases h; rfl

/-- A read of a 16-bit value is the two byte reads, big-endian (R51). -/
theorem State.halfAt_ok {s : State} {i : Nat} {v : Half} :
    s.halfAt i = .ok v ↔ ∃ hi lo, s.byteAt i = .ok hi ∧ s.byteAt (i + 1) = .ok lo ∧
      v = bigEndian hi lo := by
  unfold State.halfAt
  cases h1 : s.byteAt i <;> cases h2 : s.byteAt (i + 1) <;> simp [eq_comm]

theorem State.halfAt_error {s : State} {i : Nat} {f : Fault} (h : s.halfAt i = .error f) :
    f = .pbufNoValue := by
  unfold State.halfAt at h
  split at h
  · cases h; exact State.byteAt_error ‹_›
  · split at h <;> cases h
    exact State.byteAt_error ‹_›

/-- Reading a run of bytes answers exactly their values, in order. -/
theorem State.bytesFrom_ok {s : State} {count i : Nat} {vs : List Byte} :
    s.bytesFrom count i = .ok vs ↔
      vs.length = count ∧ ∀ k (h : k < vs.length), s.byteAt (i + k) = .ok vs[k] := by
  induction count generalizing i vs with
  | zero =>
    simp only [State.bytesFrom, Except.ok.injEq]
    constructor
    · rintro rfl; simp
    · rintro ⟨h, -⟩; exact (List.length_eq_zero_iff.1 h).symm
  | succ count ih =>
    unfold State.bytesFrom
    constructor
    · intro h
      split at h
      · cases h
      · rename_i v hv
        split at h
        · cases h
        · rename_i vs' hvs
          cases h
          obtain ⟨hl, hk⟩ := ih.1 hvs
          refine ⟨by simp [hl], fun k hk' => ?_⟩
          cases k with
          | zero => simpa using hv
          | succ k =>
            have := hk k (by simpa using hk')
            simpa [Nat.add_assoc, Nat.add_comm 1 k] using this
    · rintro ⟨hl, hk⟩
      cases vs with
      | nil => simp at hl
      | cons v vs =>
        have h0 : s.byteAt i = .ok v := hk 0 (by simp)
        have hr : s.bytesFrom count (i + 1) = .ok vs := ih.2 ⟨by simpa using hl, fun k hk' => by
          have := hk (k + 1) (by simpa using hk')
          simpa [Nat.add_assoc, Nat.add_comm 1 k] using this⟩
        simp [h0, hr]

theorem State.bytesFrom_error {s : State} {count i : Nat} {f : Fault}
    (h : s.bytesFrom count i = .error f) : f = .pbufNoValue := by
  induction count generalizing i with
  | zero => cases h
  | succ count ih =>
    unfold State.bytesFrom at h
    split at h
    · cases h; exact State.byteAt_error ‹_›
    · split at h <;> cases h
      exact ih ‹_›

/-! ### Filling the draft -/

/-- The guard of the extractions passes exactly for a tagged payload with a whole header. -/
theorem insideAnalog_ok {s : State} :
    insideAnalog s = .ok () ↔
      s.byteAt 0 = .ok Config.analogTag ∧ Config.hdrLen ≤ s.payloadLength := by
  unfold insideAnalog
  cases h : s.byteAt 0 with
  | error f => simp
  | ok t => by_cases h' : t = Config.analogTag ∧ Config.hdrLen ≤ s.payloadLength <;> simp_all

/-- An extraction answers a state only under its guard, and then changes the draft alone. -/
theorem fillDraft_next {α : Type} {s t : State} {r : Except Fault α}
    {put : α → AnalogRecord → AnalogRecord} (h : fillDraft s r put = .next t) :
    ∃ v, insideAnalog s = .ok () ∧ r = .ok v ∧ t = { s with draft := put v s.draft } := by
  unfold fillDraft at h
  split at h
  · cases h
  · rename_i u hu
    split at h
    · cases h
    · cases h; exact ⟨_, hu, rfl, rfl⟩

/-- Under its guard, an extraction that reads a value puts it into the draft. -/
theorem fillDraft_of_ok {α : Type} {s : State} {r : Except Fault α} {v : α}
    (put : α → AnalogRecord → AnalogRecord) (hi : insideAnalog s = .ok ()) (hr : r = .ok v) :
    fillDraft s r put = .next { s with draft := put v s.draft } := by
  simp [fillDraft, hi, hr]

/-- Where its guard fails, an extraction stops as the guard does. -/
theorem fillDraft_of_outside {α : Type} {s : State} {f : Fault} (r : Except Fault α)
    (put : α → AnalogRecord → AnalogRecord) (h : insideAnalog s = .error f) :
    fillDraft s r put = .fault f := by
  simp [fillDraft, h]

/-- Under its guard, an extraction whose read stops, stops as the read does. -/
theorem fillDraft_of_error {α : Type} {s : State} {r : Except Fault α} {f : Fault}
    (put : α → AnalogRecord → AnalogRecord) (hi : insideAnalog s = .ok ()) (hr : r = .error f) :
    fillDraft s r put = .fault f := by
  simp [fillDraft, hi, hr]

/-- A payload byte that PBUF does not hold is not read (R46). -/
theorem State.byteAt_of_none {s : State} {i : Nat} (h : s.pbufRead i = none) :
    s.byteAt i = .error .pbufNoValue := by
  simp [State.byteAt, h]

theorem State.byteAt_of_some {s : State} {i : Nat} {v : Byte} (hi : i < s.dlen.toNat)
    (h : s.pbufRead i = some v) : s.byteAt i = .ok v :=
  State.byteAt_ok.2 ⟨hi, h⟩

theorem State.halfAt_of_none {s : State} {i j : Nat} (hj : j = i ∨ j = i + 1)
    (h : s.pbufRead j = none) : s.halfAt i = .error .pbufNoValue := by
  cases hr : s.halfAt i with
  | error f => rw [State.halfAt_error hr]
  | ok v =>
    obtain ⟨hi, lo, h0, h1, -⟩ := State.halfAt_ok.1 hr
    rcases hj with rfl | rfl
    · simp [State.byteAt_of_none h] at h0
    · simp [State.byteAt_of_none h] at h1

theorem State.bytesFrom_of_none {s : State} {count i j : Nat} (hi : i ≤ j) (hj : j < i + count)
    (h : s.pbufRead j = none) : s.bytesFrom count i = .error .pbufNoValue := by
  cases hr : s.bytesFrom count i with
  | error f => rw [State.bytesFrom_error hr]
  | ok vs =>
    obtain ⟨hl, hk⟩ := State.bytesFrom_ok.1 hr
    have := hk (j - i) (by omega)
    rw [show i + (j - i) = j by omega, State.byteAt_of_none h] at this
    cases this

/-- Reads do not look at the draft. -/
@[simp] theorem State.byteAt_draft (s : State) (d : AnalogRecord) (i : Nat) :
    ({ s with draft := d } : State).byteAt i = s.byteAt i := rfl

@[simp] theorem State.halfAt_draft (s : State) (d : AnalogRecord) (i : Nat) :
    ({ s with draft := d } : State).halfAt i = s.halfAt i := rfl

@[simp] theorem State.bytesFrom_draft (s : State) (d : AnalogRecord) (count i : Nat) :
    ({ s with draft := d } : State).bytesFrom count i = s.bytesFrom count i := by
  induction count generalizing i with
  | zero => rfl
  | succ count ih => simp [State.bytesFrom, ih]

@[simp] theorem insideAnalog_draft (s : State) (d : AnalogRecord) :
    insideAnalog { s with draft := d } = insideAnalog s := rfl

/-! ### The input stream and the selection -/

theorem State.fetch_nil {s : State} (h : s.input = []) : s.fetch = none := by
  simp [State.fetch, h]

theorem State.fetch_cons {s : State} {b : Byte} {rest : List Byte} (h : s.input = b :: rest) :
    s.fetch = some (b, { s with input := rest }) := by
  simp [State.fetch, h]

/-- Everything a step can do: wait, or execute the operation the next byte selects. -/
theorem step_cases (s : State) :
    (s.input = [] ∧ step s = .next s) ∨
      ∃ b rest, s.input = b :: rest ∧ step s = framerStep b { s with input := rest } := by
  cases h : s.input with
  | nil => exact .inl ⟨rfl, by simp [step, State.fetch_nil h]⟩
  | cons b rest => exact .inr ⟨b, rest, rfl, by simp [step, State.fetch_cons h]⟩

/-- Everything the selection can answer, with the row's condition (R75). -/
theorem decodeInput_cases (b : Byte) (p : Position) (dlen plen : Half) :
    (b = Config.startMarker ∧ decodeInput b p dlen plen = .frSync) ∨
    (selectsLenh b p ∧ decodeInput b p dlen plen = .frLenh b) ∨
    (selectsLenl b p ∧ decodeInput b p dlen plen = .frLenl b) ∨
    (selectsPay b p dlen plen ∧ decodeInput b p dlen plen = .frPay b) ∨
    (selectsEmit b p dlen plen ∧ decodeInput b p dlen plen = .frEmit b) ∨
    (selectsSkip b p dlen plen ∧ decodeInput b p dlen plen = .frSkip b) := by
  unfold decodeInput
  by_cases h0 : b = Config.startMarker
  · exact .inl ⟨h0, if_pos h0⟩
  rw [if_neg h0]
  by_cases h1 : selectsLenh b p
  · exact .inr (.inl ⟨h1, if_pos h1⟩)
  rw [if_neg h1]
  by_cases h2 : selectsLenl b p
  · exact .inr (.inr (.inl ⟨h2, if_pos h2⟩))
  rw [if_neg h2]
  by_cases h3 : selectsPay b p dlen plen
  · exact .inr (.inr (.inr (.inl ⟨h3, if_pos h3⟩)))
  rw [if_neg h3]
  by_cases h4 : selectsEmit b p dlen plen
  · exact .inr (.inr (.inr (.inr (.inl ⟨h4, if_pos h4⟩))))
  rw [if_neg h4]
  exact .inr (.inr (.inr (.inr (.inr ⟨⟨h0, h1, h2, h3, h4⟩, rfl⟩))))

/-- What row 6 of R75 says of the registers as numbers. -/
theorem selectsSkip_toNat {b : Byte} {p : Position} {dlen plen : Half}
    (h : selectsSkip b p dlen plen) :
    p.toNat ≠ 1 ∧ p.toNat ≠ 2 ∧ ¬ (2 < p.toNat ∧ plen.toNat < dlen.toNat) ∧
      ¬ (0 < dlen.toNat ∧ plen.toNat = dlen.toNat ∧ p.toNat = dlen.toNat + 3) := by
  obtain ⟨hb, h1, h2, h3, h4⟩ := h
  refine ⟨fun e => h1 ⟨hb, BitVec.eq_of_toNat_eq e⟩, fun e => h2 ⟨hb, BitVec.eq_of_toNat_eq e⟩,
    fun e => h3 ⟨hb, e⟩, fun e => h4 ⟨hb, e.1, BitVec.eq_of_toNat_eq e.2.1, e.2.2⟩⟩

end Sys2Proof.Machine
end

