-- ==== Sys2Proof/Laws/Payload.lean ====
section
/-!
SUPPORT. Reading a payload that PBUF holds, and what the extractions and the DECODER can answer
(spec 41_decoder.md, 42_sample_extractor.md).
-/

namespace Sys2Proof.Machine

/-! ### A payload that PBUF holds -/

theorem Reference.at0_of_lt {P : List Byte} {i : Nat} (hi : i < P.length) :
    Reference.at0 P i = P[i] := by
  simp [Reference.at0, hi]

theorem State.Holds.byteAt {s : State} {P : List Byte} (h : s.Holds P) {i : Nat}
    (hi : i < P.length) : s.byteAt i = .ok (Reference.at0 P i) := by
  rw [Reference.at0_of_lt hi]
  exact State.byteAt_ok.2 ⟨h.1 ▸ hi, by rw [h.2 i hi, List.getElem?_eq_getElem hi]⟩

theorem State.Holds.halfAt {s : State} {P : List Byte} (h : s.Holds P) {i : Nat}
    (hi : i + 1 < P.length) :
    s.halfAt i = .ok (Reference.at0 P i ++ Reference.at0 P (i + 1)) :=
  State.halfAt_ok.2 ⟨_, _, h.byteAt (by omega), h.byteAt hi, rfl⟩

/-- The whole payload reads back as it is (R47, R111). -/
theorem State.Holds.bytes {s : State} {P : List Byte} (h : s.Holds P) :
    s.bytesFrom s.payloadLength 0 = .ok P :=
  State.bytesFrom_ok.2 ⟨h.1.symm, fun k hk => by
    rw [Nat.zero_add, h.byteAt hk, Reference.at0_of_lt hk]⟩

theorem State.Holds.inside {s : State} {P : List Byte} (h : s.Holds P)
    (ht : Reference.at0 P 0 = Config.analogTag) (hl : Config.hdrLen ≤ P.length) :
    insideAnalog s = .ok () :=
  insideAnalog_ok.2 ⟨ht ▸ h.byteAt (by unfold Config.hdrLen at hl; omega), h.1 ▸ hl⟩

/-! ### The sample area -/

/-- Sample sets whose bytes are there read as the pseudocode's (R136). The hypothesis speaks of the
payload bytes below `bound` only. -/
theorem readSet_of_bytes {s : State} {P : List Byte} {en : BitVec 6} {k bound : Nat}
    (hb : ∀ i < bound, s.byteAt i = .ok (Reference.at0 P i))
    (hk : Config.hdrLen + 2 * popcount en * (k + 1) ≤ bound) :
    readSet s en k = .ok #v[Reference.slot P en k 0, Reference.slot P en k 1,
      Reference.slot P en k 2, Reference.slot P en k 3, Reference.slot P en k 4,
      Reference.slot P en k 5] := by
  have hslot : ∀ c < 6, readSlot s en k c = .ok (Reference.slot P en k c) := fun c hc => by
    unfold readSlot Reference.slot
    by_cases h : channelEnabled en c = true
    · have hr := sampleOffset_bound (S := k + 1) (Nat.lt_succ_self k) hc h
      have hv : s.halfAt (sampleOffset en k c) =
          .ok (Reference.at0 P (sampleOffset en k c) ++ Reference.at0 P (sampleOffset en k c + 1)) :=
        State.halfAt_ok.2 ⟨_, _, hb _ (by omega), hb _ (by omega), rfl⟩
      rw [if_pos h, hv]
      simp only [channelEnabled] at h
      simp [Except.map, sampleOffset, rank, Config.hdrLen, h]
    · rw [if_neg h]
      simp only [channelEnabled] at h
      simp [h]
  simp [readSet, hslot, Except.bind, Except.map]

theorem readSets_of_bytes {s : State} {P : List Byte} {en : BitVec 6} {bound : Nat}
    (hb : ∀ i < bound, s.byteAt i = .ok (Reference.at0 P i)) (count k : Nat)
    (hk : Config.hdrLen + 2 * popcount en * (k + count) ≤ bound) :
    readSets s en count k = .ok ((List.range' k count).map fun k =>
      #v[Reference.slot P en k 0, Reference.slot P en k 1, Reference.slot P en k 2,
        Reference.slot P en k 3, Reference.slot P en k 4, Reference.slot P en k 5]) := by
  induction count generalizing k with
  | zero => rfl
  | succ count ih =>
    have h1 : 2 * popcount en * (k + 1) ≤ 2 * popcount en * (k + (count + 1)) :=
      Nat.mul_le_mul_left _ (by omega)
    rw [readSets, readSet_of_bytes hb (by omega), ih (k + 1) (by rw [Nat.add_assoc, Nat.add_comm 1]; exact hk)]
    simp [Except.bind, Except.map, List.range'_succ]

/-- All the sets of a payload whose bytes are there (R136, R139). -/
theorem readSets_all {s : State} {P : List Byte} {en : BitVec 6} {sets bound : Nat}
    (hb : ∀ i < bound, s.byteAt i = .ok (Reference.at0 P i))
    (hk : Config.hdrLen + 2 * popcount en * sets ≤ bound) :
    readSets s en sets 0 = .ok (Reference.sampleSets P en sets) := by
  rw [readSets_of_bytes hb sets 0 (by simpa using hk), Reference.sampleSets, List.range_eq_range']

/-- The sample sets read have the asked number, and each slot is a reading exactly when its channel is
enabled (R138). -/
theorem readSlot_noData {s : State} {en : BitVec 6} {k c : Nat} {x : Slot}
    (h : readSlot s en k c = .ok x) : x ≠ .noData ↔ channelEnabled en c = true := by
  unfold readSlot at h
  split at h
  · rename_i hc
    cases hv : s.halfAt (sampleOffset en k c) <;> simp [hv, Except.map] at h
    simp [← h, hc]
  · rename_i hc
    cases h
    simpa using hc

theorem readSet_consistent {s : State} {en : BitVec 6} {k : Nat} {v : SampleSet}
    (h : readSet s en k = .ok v) : laneConsistent en v := by
  unfold readSet at h
  simp only [Except.bind, Except.map] at h
  repeat' split at h <;> try cases h
  rename_i h0 _ _ h1 _ _ h2 _ _ h3 _ _ h4 _ _ h5
  intro c hc
  match c, hc with
  | 0, _ => exact readSlot_noData h0
  | 1, _ => exact readSlot_noData h1
  | 2, _ => exact readSlot_noData h2
  | 3, _ => exact readSlot_noData h3
  | 4, _ => exact readSlot_noData h4
  | 5, _ => exact readSlot_noData h5

theorem readSets_consistent {s : State} {en : BitVec 6} {count k : Nat} {vs : List SampleSet}
    (h : readSets s en count k = .ok vs) :
    vs.length = count ∧ ∀ v ∈ vs, laneConsistent en v := by
  induction count generalizing k vs with
  | zero => cases h; simp
  | succ count ih =>
    unfold readSets at h
    simp only [Except.bind, Except.map] at h
    repeat' split at h <;> try cases h
    rename_i h0 _ _ h1
    obtain ⟨hl, hv⟩ := ih h1
    refine ⟨by simp [hl], fun v hm => ?_⟩
    rcases List.mem_cons.1 hm with rfl | hm
    · exact readSet_consistent h0
    · exact hv v hm

/-- The sample area stops in one way only, on a byte that PBUF does not hold (R46, R139). -/
theorem readSlot_error {s : State} {en : BitVec 6} {k c : Nat} {f : Fault}
    (h : readSlot s en k c = .error f) : f = .pbufNoValue := by
  unfold readSlot at h
  split at h
  · cases hv : s.halfAt (sampleOffset en k c) <;> simp [hv, Except.map] at h
    exact h ▸ State.halfAt_error hv
  · cases h

theorem readSet_error {s : State} {en : BitVec 6} {k : Nat} {f : Fault}
    (h : readSet s en k = .error f) : f = .pbufNoValue := by
  unfold readSet at h
  simp only [Except.bind, Except.map] at h
  repeat' split at h
  all_goals cases h
  all_goals exact readSlot_error ‹_›

theorem readSets_error {s : State} {en : BitVec 6} {count k : Nat} {f : Fault}
    (h : readSets s en count k = .error f) : f = .pbufNoValue := by
  induction count generalizing k with
  | zero => cases h
  | succ count ih =>
    unfold readSets at h
    simp only [Except.bind, Except.map] at h
    repeat' split at h
    all_goals cases h
    · exact readSet_error ‹_›
    · exact ih ‹_›

/-- A set that reads has read each of its slots. -/
theorem readSet_slots {s : State} {en : BitVec 6} {k : Nat} {v : SampleSet}
    (h : readSet s en k = .ok v) {c : Nat} (hc : c < 6) : ∃ x, readSlot s en k c = .ok x := by
  unfold readSet at h
  simp only [Except.bind, Except.map] at h
  repeat' split at h <;> try cases h
  rename_i h0 _ _ h1 _ _ h2 _ _ h3 _ _ h4 _ _ h5
  match c, hc with
  | 0, _ => exact ⟨_, h0⟩
  | 1, _ => exact ⟨_, h1⟩
  | 2, _ => exact ⟨_, h2⟩
  | 3, _ => exact ⟨_, h3⟩
  | 4, _ => exact ⟨_, h4⟩
  | 5, _ => exact ⟨_, h5⟩

/-- Sample sets that read have read each of their slots. -/
theorem readSets_slots {s : State} {en : BitVec 6} {count k : Nat} {vs : List SampleSet}
    (h : readSets s en count k = .ok vs) {j c : Nat} (hk : k ≤ j) (hj : j < k + count) (hc : c < 6) :
    ∃ x, readSlot s en j c = .ok x := by
  induction count generalizing k vs with
  | zero => omega
  | succ count ih =>
    unfold readSets at h
    simp only [Except.bind, Except.map] at h
    repeat' split at h <;> try cases h
    rename_i h0 _ _ h1
    rcases Nat.eq_or_lt_of_le hk with rfl | hlt
    · exact readSet_slots h0 hc
    · exact ih h1 hlt (by omega)

/-- The sample area is read without looking at the draft. -/
@[simp] theorem readSets_draft (s : State) (d : AnalogRecord) (en : BitVec 6) (count k : Nat) :
    readSets { s with draft := d } en count k = readSets s en count k := by
  induction count generalizing k with
  | zero => rfl
  | succ count ih => simp only [readSets, ih]; rfl

@[simp] theorem readSampleArea_draft (s : State) (d : AnalogRecord) :
    readSampleArea { s with draft := d } = readSampleArea s := by
  simp only [readSampleArea, readSets_draft]; rfl

/-- Reading the two indicator bytes stops in one way only (R46). -/
theorem indicators_error {s : State} {f : Fault} (h : indicators s = .error f) : f = .pbufNoValue := by
  unfold indicators at h
  simp only [Except.bind, Except.map] at h
  repeat' split at h
  all_goals cases h
  all_goals exact State.byteAt_error ‹_›

/-- A byte of the sample area that PBUF does not hold stops the unpacking (R46, R134). -/
theorem readSets_of_none {s : State} {en : BitVec 6} {S a : Nat} (h8 : Config.hdrLen ≤ a)
    (ha : a < Config.hdrLen + 2 * popcount en * S) (h : s.pbufRead a = none) :
    readSets s en S 0 = .error .pbufNoValue := by
  cases hr : readSets s en S 0 with
  | error f => rw [readSets_error hr]
  | ok vs =>
    obtain ⟨k, c, hk, hc, he, hac⟩ := exists_sampleOffset h8 ha
    obtain ⟨x, hx⟩ := readSets_slots hr (Nat.zero_le k) (by omega) hc
    simp [readSlot, he, State.halfAt_of_none hac h, Except.map] at hx

/-- `maskAndSets` stops on either byte it needs (R46). -/
theorem maskAndSets_of_none {s : State} (h : s.pbufRead 5 = none ∨ s.pbufRead 6 = none) :
    maskAndSets s = .error .pbufNoValue := by
  unfold maskAndSets
  cases h6 : s.byteAt 6 with
  | error f => rw [State.byteAt_error h6]; rfl
  | ok v6 =>
    cases h5 : s.byteAt 5 with
    | error f => rw [State.byteAt_error h5]; rfl
    | ok v5 =>
      rcases h with h | h
      · simp [State.byteAt_of_none h] at h5
      · simp [State.byteAt_of_none h] at h6

/-! ### What the DECODER can answer -/

/-- `maskAndSets` reads the two header bytes it names (R118, R130). -/
theorem maskAndSets_ok {s : State} {en : BitVec 6} {sets : Byte} :
    maskAndSets s = .ok (en, sets) ↔
      ∃ chH, s.byteAt 6 = .ok chH ∧ s.byteAt 5 = .ok sets ∧ en = channelMask chH := by
  unfold maskAndSets
  cases h6 : s.byteAt 6 <;> cases h5 : s.byteAt 5 <;>
    simp [Except.bind, Except.map, eq_comm, and_comm]

/-- A run of extractions changes the draft alone. -/
theorem runAll_draft {fs : List (State → Result)}
    (hf : ∀ f ∈ fs, ∀ s t, f s = .next t → t = { s with draft := t.draft }) {s t : State}
    (h : runAll fs s = .next t) : t = { s with draft := t.draft } := by
  induction fs generalizing s with
  | nil => cases h; rfl
  | cons f fs ih =>
    obtain ⟨u, hu, ht⟩ := andThen_eq_next.1 h
    have h1 := hf f (by simp) s u hu
    have h2 := ih (fun g hg => hf g (by simp [hg])) ht
    rw [h1] at h2
    exact h2

/-- A run of operations that each go on, changing the draft alone, or stop with the fault `e`, stops with `e` as
soon as one of them stops whatever the draft. -/
theorem runAll_of_stopping {fs : List (State → Result)} {s : State} {e : Fault}
    (hf : ∀ f ∈ fs, ∀ d, (∃ d', f { s with draft := d } = .next { s with draft := d' }) ∨
      f { s with draft := d } = .fault e)
    {g : State → Result} (hg : g ∈ fs) (hstop : ∀ d, g { s with draft := d } = .fault e)
    (d : AnalogRecord) : runAll fs { s with draft := d } = .fault e := by
  induction fs generalizing d with
  | nil => cases hg
  | cons f fs ih =>
    rw [runAll_cons]
    rcases hf f (by simp) d with ⟨d', hd⟩ | hd
    · rw [hd, andThen_next]
      rcases List.mem_cons.1 hg with rfl | hg
      · rw [hstop d] at hd; cases hd
      · exact ih (fun k hk => hf k (by simp [hk])) hg d'
    · rw [hd, andThen_fault]

/-- DEC_ANALOG answers a state only with one event appended, and the event is a TRUNCATED one under a
guard that fails, or the record the extractions leave (R110, R124). -/
theorem execDecAnalog_next {s t : State} (h : execDecAnalog s = .next t) :
    s.byteAt 0 = .ok Config.analogTag ∧
    ((s.payloadLength < Config.hdrLen ∧
        t = s.emit (.truncated Config.analogTag s.dlen (BitVec.ofNat 16 Config.hdrLen))) ∨
      ∃ en sets, Config.hdrLen ≤ s.payloadLength ∧ maskAndSets s = .ok (en, sets) ∧
        ((s.payloadLength < requiredLength en sets ∧
            t = s.emit (.truncated Config.analogTag s.dlen
              (BitVec.ofNat 16 (requiredLength en sets)))) ∨
          (requiredLength en sets ≤ s.payloadLength ∧
            ∃ u, extractRecord s = .next u ∧ t = s.emit (.analog u.draft)))) := by
  unfold execDecAnalog at h
  split at h
  · cases h
  rename_i tag htag
  split at h
  · cases h
  rename_i htag'
  rw [not_not] at htag'
  subst htag'
  refine ⟨htag, ?_⟩
  split at h
  · cases h; exact .inl ⟨‹_›, rfl⟩
  rename_i hlen
  split at h
  · cases h
  rename_i en sets hms
  refine .inr ⟨en, sets, by omega, hms, ?_⟩
  split at h
  · cases h; exact .inl ⟨‹_›, rfl⟩
  · rename_i hreq
    unfold emitRecord at h
    split at h <;> cases h
    exact .inr ⟨by omega, _, ‹_›, rfl⟩

/-- DEC_RAW answers a state only with the whole payload as one RAW event (R111). -/
theorem execDecRaw_next {tag : Byte} {s t : State} (h : execDecRaw tag s = .next t) :
    s.byteAt 0 = .ok tag ∧ tag ≠ Config.analogTag ∧
      ∃ bytes, s.bytesFrom s.payloadLength 0 = .ok bytes ∧ t = s.emit (.raw bytes s.dlen) := by
  unfold execDecRaw at h
  split at h
  · cases h
  split at h
  · rename_i v hv hc
    split at h
    · cases h
    · cases h
      exact ⟨hc.1 ▸ hv, hc.2, _, ‹_›, rfl⟩
  · cases h

/-- Decode, run by FR_EMIT, answers a state only with exactly one event appended (R124). -/
theorem decodePayloadNow_next {s t : State} (h : decodePayloadNow s = .next t) :
    ∃ ev, t = s.emit ev := by
  unfold decodePayloadNow at h
  split at h
  · cases h
  split at h
  · obtain ⟨-, ⟨-, h⟩ | ⟨_, _, -, -, ⟨-, h⟩ | ⟨-, _, -, h⟩⟩⟩ := execDecAnalog_next h <;> exact ⟨_, h⟩
  · obtain ⟨-, -, _, -, h⟩ := execDecRaw_next h
    exact ⟨_, h⟩

/-! ### What a step of the FRAMER can answer -/

/-- Everything one FRAMER step answers, by the operation it performs (R88 to R94). -/
theorem framerStep_cases {b : Byte} {s t : State} (h : framerStep b s = .next t) :
    (b = Config.startMarker ∧ t = { s with pos := 1, dlen := 0, plen := 0, mem := [] }) ∨
    (selectsLenh b s.pos ∧
      t = { s with dlen := s.dlen + (zext16 b <<< 8), pos := sat17 (s.pos.toNat + 1) }) ∨
    (selectsLenl b s.pos ∧
      t = { s with dlen := s.dlen + zext16 b, pos := sat17 (s.pos.toNat + 1) }) ∨
    (selectsPay b s.pos s.dlen s.plen ∧
      t = { s with
            mem := Memory.write s.mem s.plen.toNat b
            plen := s.plen + 1
            pos := sat17 (s.pos.toNat + 1) }) ∨
    (selectsEmit b s.pos s.dlen s.plen ∧ ∃ ev, decodePayloadNow s = .next (s.emit ev) ∧
      t = { s with events := s.events ++ [ev], pos := sat17 (s.pos.toNat + 1) }) ∨
    (selectsSkip b s.pos s.dlen s.plen ∧ t = { s with pos := sat17 (s.pos.toNat + 1) }) := by
  unfold framerStep State.select at h
  rcases decodeInput_cases b s.pos s.dlen s.plen with
    ⟨hb, hd⟩ | ⟨hc, hd⟩ | ⟨hc, hd⟩ | ⟨hc, hd⟩ | ⟨hc, hd⟩ | ⟨hc, hd⟩ <;> rw [hd] at h
  · cases h; exact .inl ⟨hb, rfl⟩
  · refine .inr (.inl ⟨hc, ?_⟩)
    simp only [exec, execFrLenh, if_pos hc] at h
    cases h; rfl
  · refine .inr (.inr (.inl ⟨hc, ?_⟩))
    simp only [exec, execFrLenl, if_pos hc] at h
    cases h; rfl
  · refine .inr (.inr (.inr (.inl ⟨hc, ?_⟩)))
    simp only [exec, execFrPay, if_pos hc] at h
    split at h
    · cases h
    · obtain ⟨-, rfl⟩ := State.pbufWrite_ok ‹_›
      cases h; rfl
  · refine .inr (.inr (.inr (.inr (.inl ⟨hc, ?_⟩))))
    simp only [exec, execFrEmit, if_pos hc] at h
    obtain ⟨u, hu, ht⟩ := andThen_eq_next.1 h
    obtain ⟨ev, rfl⟩ := decodePayloadNow_next hu
    cases ht
    exact ⟨ev, hu, rfl⟩
  · refine .inr (.inr (.inr (.inr (.inr ⟨hc, ?_⟩))))
    simp only [exec, execFrSkip, if_pos hc] at h
    cases h; rfl

end Sys2Proof.Machine
end

