-- ==== Sys2Proof/Laws/PerInstr.lean ====
section
/-!
SUPPORT. The family InTable: a well-formed operation's code lies within its own row of spec/opcode_table.json.
A byte-coded row's (match, mask) accepts the code's byte; a field row's place is the code's place.
-/

namespace Sys2Proof.Laws.InTable

/-- The operation's code is one its own row admits. -/
def Statement (i : Instr) : Prop :=
  i.wellFormed = true →
    match encode i with
    | .input b => ∃ mm, matchMask i = some mm ∧ accepts mm b = true
    | .tag t => ∃ mm, matchMask i = some mm ∧ accepts mm t = true
    | .field f => matchMask i = none ∧ fieldOf i = some f ∧ i ∈ extractions

theorem accepts_any (b : Byte) : accepts (0x00, 0x00) b = true := by simp [accepts]

theorem frSync : Statement .frSync := fun _ => ⟨_, rfl, by decide⟩
theorem frLenh (b : Byte) : Statement (.frLenh b) := fun _ => ⟨_, rfl, accepts_any b⟩
theorem frLenl (b : Byte) : Statement (.frLenl b) := fun _ => ⟨_, rfl, accepts_any b⟩
theorem frPay (b : Byte) : Statement (.frPay b) := fun _ => ⟨_, rfl, accepts_any b⟩
theorem frEmit (b : Byte) : Statement (.frEmit b) := fun _ => ⟨_, rfl, accepts_any b⟩
theorem frSkip (b : Byte) : Statement (.frSkip b) := fun _ => ⟨_, rfl, accepts_any b⟩
theorem decAnalog : Statement .decAnalog := fun _ => ⟨_, rfl, by decide⟩
theorem decRaw (tag : Byte) : Statement (.decRaw tag) := fun _ => ⟨_, rfl, accepts_any tag⟩
theorem exType : Statement .exType := fun _ => ⟨rfl, rfl, by decide⟩
theorem exSrc16 : Statement .exSrc16 := fun _ => ⟨rfl, rfl, by decide⟩
theorem exRssi : Statement .exRssi := fun _ => ⟨rfl, rfl, by decide⟩
theorem exAbcast : Statement .exAbcast := fun _ => ⟨rfl, rfl, by decide⟩
theorem exPbcast : Statement .exPbcast := fun _ => ⟨rfl, rfl, by decide⟩
theorem exNsets : Statement .exNsets := fun _ => ⟨rfl, rfl, by decide⟩
theorem exChind : Statement .exChind := fun _ => ⟨rfl, rfl, by decide⟩
theorem exChmask : Statement .exChmask := fun _ => ⟨rfl, rfl, by decide⟩
theorem exSamples : Statement .exSamples := fun _ => ⟨rfl, rfl, by decide⟩
theorem exDiag : Statement .exDiag := fun _ => ⟨rfl, rfl, by decide⟩

end Sys2Proof.Laws.InTable
end

