-- ==== Sys2Proof/Tests/Slice0.lean ====
section
/-!
SUPPORT. Tests on fixed values, expected results taken from spec/95_test_vectors.md (named in each comment), and a
witness for the hypotheses of each statement of Certificates/Slice0/Obligations.lean that has any.
-/

namespace Sys2Proof.Tests

open Sys2Proof.Machine

/-! ### Small states -/

/-- A state with given registers and no content. -/
def regs (p : Position) (dlen plen : Half) : State :=
  { State.reset with pos := p, dlen := dlen, plen := plen }

/-- PBUF holding a list of bytes from offset 0. -/
def pbuf (P : List Byte) : Memory := P.zipIdx.map fun x => (x.2, x.1)

/-- A complete payload waiting for its checksum byte. -/
def complete (P : List Byte) : State :=
  { regs (BitVec.ofNat 17 (P.length + 3)) (BitVec.ofNat 16 P.length) (BitVec.ofNat 16 P.length) with
    mem := pbuf P }

/-- The payload of 95_test_vectors.md E1. -/
def e1 : List Byte := [0x83, 0x00, 0x01, 0x20, 0x00, 0x01, 0x02, 0x00, 0x01, 0x23]

/-- The payload of 95_test_vectors.md TX3. -/
def tx3 : List Byte :=
  [0x83, 0x00, 0x00, 0x00, 0x00, 0x02, 0x55, 0x00, 0x00, 0x01, 0x00, 0x02, 0x00, 0x03, 0x01, 0x00,
    0x02, 0x00, 0x03, 0x00]

/-- The header of 95_test_vectors.md TD7. -/
def td7 : List Byte := [0x83, 0xFF, 0xFF, 0xFF, 0xFF, 0x00, 0xFF, 0xFF]

/-- The next state, if there is one. -/
def after (r : Result) : Option State :=
  match r with
  | .next s => some s
  | .fault _ => none
  | .refused _ => none

/-- POS, DLEN and PLEN of the next state. -/
def registers (r : Result) : Option (Position × Half × Half) :=
  (after r).map fun s => (s.pos, s.dlen, s.plen)

/-- The events of the next state. -/
def eventsOf (r : Result) : Option (List Event) := (after r).map State.events

/-- The draft record of the next state. -/
def draftOf (r : Result) : Option AnalogRecord := (after r).map State.draft

/-! ### WellFormed: an ill-formed operand for each check, refused (R66, R74, R77) -/

theorem test_illformed_lenh : (Instr.frLenh 0x7E).wellFormed = false := by decide
theorem test_illformed_lenl : (Instr.frLenl 0x7E).wellFormed = false := by decide
theorem test_illformed_pay : (Instr.frPay 0x7E).wellFormed = false := by decide
theorem test_illformed_emit : (Instr.frEmit 0x7E).wellFormed = false := by decide
theorem test_illformed_skip : (Instr.frSkip 0x7E).wellFormed = false := by decide
theorem test_illformed_raw : (Instr.decRaw 0x83).wellFormed = false := by decide

/-! ### Decoding: words written out from R66, R69, R75, R76 -/

theorem test_decode_sync : decodeInput 0b01111110 1 0 0 = .frSync := by decide
theorem test_decode_lenh : decodeInput 0b00000001 1 0 0 = .frLenh 0x01 := by decide
theorem test_decode_lenl : decodeInput 0b00001010 2 0 0 = .frLenl 0x0A := by decide
theorem test_decode_pay : decodeInput 0b10000011 3 10 0 = .frPay 0x83 := by decide
theorem test_decode_emit : decodeInput 0b00000000 13 10 10 = .frEmit 0x00 := by decide
theorem test_decode_skip : decodeInput 0b00010001 0x1FFFF 0 0 = .frSkip 0x11 := by decide
theorem test_decode_analog : decodePayload [0b10000011] = .ok .decAnalog := by decide
theorem test_decode_raw : decodePayload [0b10000010] = .ok (.decRaw 0x82) := by decide
theorem test_decode_empty : decodePayload [] = .error .emptyPayload := by decide
theorem test_decode_type : decodeField ⟨0, some 0, 7, 0⟩ = .ok .exType := by decide
theorem test_decode_src16 : decodeField ⟨1, some 2, 7, 0⟩ = .ok .exSrc16 := by decide
theorem test_decode_rssi : decodeField ⟨3, some 3, 7, 0⟩ = .ok .exRssi := by decide
theorem test_decode_abcast : decodeField ⟨4, some 4, 1, 1⟩ = .ok .exAbcast := by decide
theorem test_decode_pbcast : decodeField ⟨4, some 4, 2, 2⟩ = .ok .exPbcast := by decide
theorem test_decode_nsets : decodeField ⟨5, some 5, 7, 0⟩ = .ok .exNsets := by decide
theorem test_decode_chind : decodeField ⟨6, some 7, 7, 0⟩ = .ok .exChind := by decide
theorem test_decode_chmask : decodeField ⟨6, some 6, 6, 1⟩ = .ok .exChmask := by decide
theorem test_decode_samples : decodeField ⟨8, none, 7, 0⟩ = .ok .exSamples := by decide
theorem test_decode_diag : decodeField ⟨0, some 7, 7, 0⟩ = .ok .exDiag := by decide
theorem test_decode_nofield : decodeField ⟨4, some 4, 0, 0⟩ = .error .noSuchField := by decide

/-! ### FRAMER vectors -/

/-- TF2. -/
theorem test_sync_from_reset : registers (framerStep 0x7E .reset) = some (1, 0, 0) := by decide
/-- TF13. -/
theorem test_sync_in_payload : registers (framerStep 0x7E (regs 10 20 7)) = some (1, 0, 0) := by decide
/-- TF3. -/
theorem test_lenh : registers (framerStep 0x01 (regs 1 0 0)) = some (2, 0x0100, 0) := by decide
/-- TF4. -/
theorem test_lenl : registers (framerStep 0x02 (regs 2 0x0100 0)) = some (3, 0x0102, 0) := by decide
/-- TF16. -/
theorem test_lenl_largest : registers (framerStep 0xFF (regs 2 0xFF00 0)) = some (3, 0xFFFF, 0) := by decide
/-- TF9. -/
theorem test_pay : (after (framerStep 0x81 (regs 3 1 0))).map (fun s => (s.pos, s.plen, s.mem)) =
    some (4, 1, [(0, 0x81)]) := by decide
/-- TF18. -/
theorem test_pay_last : (after (framerStep 0x44 (regs 65537 0xFFFF 0xFFFE))).map
    (fun s => (s.pos, s.plen, s.pbufRead 0xFFFE)) = some (65538, 0xFFFF, some 0x44) := by decide
/-- TF10. -/
theorem test_emit_raw : eventsOf (framerStep 0xAA (complete [0x81])) = some [.raw [0x81] 1] := by decide
/-- TF11. -/
theorem test_emit_lost : eventsOf (framerStep 0x7E (complete [0x81])) = some [] := by decide
/-- TF1. -/
theorem test_skip_idle : registers (framerStep 0x11 .reset) = some (0x1FFFF, 0, 0) := by decide
/-- TF14. -/
theorem test_skip_saturates : registers (framerStep 0x33 (regs 0x1FFFE 5 5)) = some (0x1FFFF, 5, 5) := by
  decide

/-! ### DECODER vectors -/

/-- TD1. -/
theorem test_raw : eventsOf (exec (.decRaw 0x81) (complete [0x81, 0x12])) =
    some [.raw [0x81, 0x12] 2] := by decide
/-- TD4. -/
theorem test_truncated_header : eventsOf (exec .decAnalog (complete [0x83])) =
    some [.truncated 0x83 1 8] := by decide
/-- TD11. -/
theorem test_truncated_largest :
    eventsOf (exec .decAnalog (complete [0x83, 0xFF, 0xFF, 0xFF, 0xFF, 0xFF, 0xFF, 0xFF])) =
      some [.truncated 0x83 8 3068] := by decide
/-- E1. -/
theorem test_analog : eventsOf (framerStep 0x00 (complete e1)) = some [.analog
    { frameType := 0x83, sourceAddress16 := 1, signalStrength := 32, isAddressBroadcast := false
      isPanBroadcast := false, totalSampleSets := 1, channelIndicatorHigh := 0x02
      channelIndicatorLow := 0x00, enabledChannels := 0b000001, analogChannelCount := 1
      sampleSets := [#v[.value 291, .noData, .noData, .noData, .noData, .noData]]
      diagnosticChecksum := 167 }] := by decide

/-! ### Extraction vectors -/

/-- E1. -/
theorem test_type : (draftOf (exec .exType (complete e1))).map (·.frameType) = some 0x83 := by decide
/-- TD7. -/
theorem test_src16 : (draftOf (exec .exSrc16 (complete td7))).map (·.sourceAddress16) =
    some 65535 := by decide
/-- E1. -/
theorem test_src16_order : (draftOf (exec .exSrc16 (complete e1))).map (·.sourceAddress16) =
    some 1 := by decide
/-- E1. -/
theorem test_rssi : (draftOf (exec .exRssi (complete e1))).map (·.signalStrength) = some 32 := by decide
/-- TD9, option 02 and 04. -/
theorem test_abcast :
    (draftOf (exec .exAbcast (complete [0x83, 0, 0, 0, 0x02, 0, 0, 0]))).map (·.isAddressBroadcast) =
      some true ∧
    (draftOf (exec .exAbcast (complete [0x83, 0, 0, 0, 0x04, 0, 0, 0]))).map (·.isAddressBroadcast) =
      some false := by decide
/-- TD9, option 02 and 04. -/
theorem test_pbcast :
    (draftOf (exec .exPbcast (complete [0x83, 0, 0, 0, 0x02, 0, 0, 0]))).map (·.isPanBroadcast) =
      some false ∧
    (draftOf (exec .exPbcast (complete [0x83, 0, 0, 0, 0x04, 0, 0, 0]))).map (·.isPanBroadcast) =
      some true := by decide
/-- TX3. -/
theorem test_nsets : (draftOf (exec .exNsets (complete tx3))).map (·.totalSampleSets) = some 2 := by decide
/-- E1. -/
theorem test_chind : (draftOf (exec .exChind (complete e1))).map
    (fun d => (d.channelIndicatorHigh, d.channelIndicatorLow)) = some (0x02, 0x00) := by decide
/-- TX3: 0x55 enables channels 1, 3 and 5. -/
theorem test_chmask : (draftOf (exec .exChmask (complete tx3))).map
    (fun d => (d.enabledChannels, d.analogChannelCount)) = some (0b101010, 3) := by decide
/-- TX1: bits 0 and 7 do not count. -/
theorem test_chmask_ignored : channelMask 0x81 = 0 ∧ channelMask 0xFF = 0x3F ∧
    channelList (channelMask 0x0A) = [0, 2] := by decide
/-- TX3. -/
theorem test_samples : (draftOf (exec .exSamples (complete tx3))).map (·.sampleSets) =
    some [#v[.noData, .value 1, .noData, .value 2, .noData, .value 3],
      #v[.noData, .value 256, .noData, .value 512, .noData, .value 768]] := by decide
/-- TX5: channel 1, not 0 or 4. -/
theorem test_samples_order :
    (draftOf (exec .exSamples (complete [0x83, 0, 0, 0, 0, 1, 0x04, 0, 0xAB, 0xCD]))).map (·.sampleSets) =
      some [#v[.noData, .value 43981, .noData, .noData, .noData, .noData]] := by decide
/-- TD7. -/
theorem test_diag : (draftOf (exec .exDiag (complete td7))).map (·.diagnosticChecksum) = some 1661 := by
  decide
/-- TX4. -/
theorem test_pack : (Slot.value 0).pack = 0x10000 ∧ Slot.noData.pack = 0 ∧
    (Slot.value 65534).pack = 0x1FFFE := by decide

/-! ### The table words (log 6) -/

theorem test_table_sync : decodeTableWord 8 0x7E = some .frSync ∧
    registers (step (State.reset.withFetchWord 8 0x7E)) = some (1, 0, 0) := by decide
theorem test_table_analog : decodeTableWord 8 0x83 = some .decAnalog ∧
    (eventsOf (step (State.reset.withFetchWord 8 0x83))).map (fun l => l.map Event.kindCode) =
      some [1] := by decide

/-! ### Witnesses: a state and operands that meet all the hypotheses of a statement together -/

/-- A next state there is, shown by evaluation. -/
theorem next_of_after {r : Result} (h : (after r).isSome = true) : ∃ t, r = .next t := by
  cases r with
  | next t => exact ⟨t, rfl⟩
  | fault e => cases h
  | refused e => cases h

theorem witness_StepRunsDecodedOperation :
    ({ State.reset with input := [0x7E, 0x00] } : State).input = 0x7E :: [0x00] ∧
      State.reset.input = [] := by decide

/-- A FRAMER row, a DECODER row and a field row. -/
theorem witness_DecodeEncodeAgree :
    ((Instr.frPay 0x83).wellFormed = true ∧ (Instr.frPay 0x83).guardHolds 3 1 0) ∧
    ((Instr.decRaw 0x82).wellFormed = true ∧ (Instr.decRaw 0x82).guardHolds 0 0 0) ∧
    (Instr.exDiag.wellFormed = true ∧ Instr.exDiag.guardHolds 0 0 0) :=
  ⟨⟨rfl, (by decide : selectsPay 0x83 3 1 0)⟩, ⟨rfl, trivial⟩, ⟨rfl, trivial⟩⟩

theorem witness_EncodeDecodeAgree :
    decode (.input 0x00) 13 10 10 = .ok (.frEmit 0x00) ∧
    decode (.field ⟨8, none, 7, 0⟩) 0 0 0 = .ok .exSamples := by decide

/-- POS = 1 on a state that meets the invariant. -/
theorem witness_FrLenhAddsHighByte :
    (0xFF : Byte) ≠ 0x7E ∧ (regs 1 0 0).pos = 1 ∧ (regs 1 0 0).Inv := by decide

theorem witness_FrLenlAddsLowByte :
    (0xFF : Byte) ≠ 0x7E ∧ (regs 2 0xFF00 0).pos = 2 ∧ (regs 2 0xFF00 0).Inv := by decide

/-- The first append of the longest frame, the last one, and an append where POS is saturated. -/
theorem witness_FrPayAppendsByte :
    (0x44 : Byte) ≠ 0x7E ∧
    (2 < (regs 3 0xFFFF 0).pos.toNat ∧ (regs 3 0xFFFF 0).plen.toNat < (regs 3 0xFFFF 0).dlen.toNat ∧
      (regs 3 0xFFFF 0).Inv) ∧
    (2 < (regs 65537 0xFFFF 0xFFFE).pos.toNat ∧
      (regs 65537 0xFFFF 0xFFFE).plen.toNat < (regs 65537 0xFFFF 0xFFFE).dlen.toNat) ∧
    (2 < (regs 0x1FFFF 2 1).pos.toNat ∧ (regs 0x1FFFF 2 1).plen.toNat < (regs 0x1FFFF 2 1).dlen.toNat) := by
  decide

theorem witness_FrEmitHandsPayloadToDecoder :
    (complete e1).Holds e1 ∧ (0x00 : Byte) ≠ 0x7E ∧ 0 < (complete e1).dlen.toNat ∧
      (complete e1).plen = (complete e1).dlen ∧
      (complete e1).pos.toNat = (complete e1).dlen.toNat + 3 := by decide

/-- The three cases of R94, and POS = 0, which no run reaches. -/
theorem witness_FrSkipOnlyAdvances :
    selectsSkip 0x11 0x1FFFF 0 0 ∧ selectsSkip 0x00 5 1 1 ∧ selectsSkip 0x55 3 0 0 ∧
      selectsSkip 0x55 0 0 0 :=
  ⟨by decide, by decide, by decide, by decide⟩

theorem witness_FramerOperationsStopUnselected :
    Instr.frLenh 0x01 ∈ [Instr.frLenh 0x01, .frLenl 0x01, .frPay 0x01, .frEmit 0x01, .frSkip 0x01] ∧
      ¬ (Instr.frLenh 0x01).guardHolds 2 0 0 :=
  ⟨by decide, (by decide : ¬ selectsLenh 0x01 2)⟩

/-- A marker, another byte, and a byte at saturation. -/
theorem witness_EveryStepAdvancesPosition :
    (∃ t, framerStep 0x7E (regs 10 20 7) = .next t) ∧ (∃ t, framerStep 0x01 (regs 1 0 0) = .next t) ∧
      ∃ t, framerStep 0x33 (regs 0x1FFFF 5 5) = .next t :=
  ⟨next_of_after (by decide), next_of_after (by decide), next_of_after (by decide)⟩

theorem witness_LengthAndSkipFrame :
    Instr.frSkip 0x11 ∈ [Instr.frLenh 0x11, .frLenl 0x11, .frSkip 0x11] ∧
      ∃ t, exec (.frSkip 0x11) .reset = .next t :=
  ⟨by decide, next_of_after (by decide)⟩

theorem witness_FrPayFrame : ∃ t, exec (.frPay 0x44) (regs 65537 0xFFFF 0xFFFE) = .next t :=
  next_of_after (by decide)

theorem witness_EmissionFrame :
    Instr.frEmit 0x81 ∈ [Instr.frEmit 0x81, .decAnalog, .decRaw 0x81] ∧
      (∃ t, exec (.frEmit 0x81) (complete e1) = .next t) ∧
      ∃ t, exec (.decRaw 0x81) (complete [0x81]) = .next t :=
  ⟨by decide, next_of_after (by decide), next_of_after (by decide)⟩

theorem witness_ExtractionFrame :
    Instr.exSamples ∈ extractions ∧ ∃ t, exec .exSamples (complete tx3) = .next t :=
  ⟨by decide, next_of_after (by decide)⟩

theorem witness_DecRawPassesPayload :
    (complete [0x82]).Holds (0x82 :: []) ∧ (0x82 : Byte) ≠ 0x83 := by decide

/-- A payload of exactly the required length, and one with excess bytes (TD10). -/
theorem witness_DecAnalogEmitsRecord :
    ((complete e1).Holds (0x83 :: 0x00 :: 0x01 :: 0x20 :: 0x00 :: 0x01 :: 0x02 :: 0x00 :: [0x01, 0x23]) ∧
      8 + 2 * popcount (channelMask 0x02) * (0x01 : Byte).toNat ≤ 8 + 2) ∧
    ((complete (e1 ++ [0xAB, 0xCD])).Holds
        (0x83 :: 0x00 :: 0x01 :: 0x20 :: 0x00 :: 0x01 :: 0x02 :: 0x00 :: [0x01, 0x23, 0xAB, 0xCD]) ∧
      8 + 2 * popcount (channelMask 0x02) * (0x01 : Byte).toNat ≤ 8 + 4) := by decide

/-- N = 1 and N = 7. -/
theorem witness_ShortHeaderIsTruncated :
    ((complete [0x83]).pbufRead 0 = some 0x83 ∧ 0 < (complete [0x83]).dlen.toNat ∧
      (complete [0x83]).dlen.toNat < 8) ∧
    ((complete (e1.take 7)).pbufRead 0 = some 0x83 ∧ (complete (e1.take 7)).dlen.toNat = 7) := by decide

/-- One byte short of the required length (TD6), and exactly the required length (E1). -/
theorem witness_RequiredLengthDecides :
    ((complete (e1.take 9)).pbufRead 0 = some 0x83 ∧ (complete (e1.take 9)).pbufRead 5 = some 0x01 ∧
      (complete (e1.take 9)).pbufRead 6 = some 0x02 ∧ 8 ≤ (complete (e1.take 9)).dlen.toNat ∧
      (complete (e1.take 9)).dlen.toNat < 8 + 2 * popcount (channelMask 0x02) * (0x01 : Byte).toNat) ∧
    ((complete e1).pbufRead 0 = some 0x83 ∧ (complete e1).pbufRead 5 = some 0x01 ∧
      (complete e1).pbufRead 6 = some 0x02 ∧
      8 + 2 * popcount (channelMask 0x02) * (0x01 : Byte).toNat ≤ (complete e1).dlen.toNat ∧
      ∀ i, i < 8 + 2 * popcount (channelMask 0x02) * (0x01 : Byte).toNat →
        ((complete e1).pbufRead i).isSome = true) := by decide

theorem witness_ExcessBytesAreIgnored :
    (complete e1).pbufRead 0 = some 0x83 ∧ (complete e1).pbufRead 5 = some 0x01 ∧
      (complete e1).pbufRead 6 = some 0x02 ∧
      8 + 2 * popcount (channelMask 0x02) * (0x01 : Byte).toNat ≤ (complete e1).dlen.toNat ∧
      8 + 2 * popcount (channelMask 0x02) * (0x01 : Byte).toNat ≤
        (complete (e1 ++ [0xAB, 0xCD])).dlen.toNat ∧
      ∀ i, i < 8 + 2 * popcount (channelMask 0x02) * (0x01 : Byte).toNat →
        ((complete e1).pbufRead i).isSome = true ∧
          (complete (e1 ++ [0xAB, 0xCD])).pbufRead i = (complete e1).pbufRead i := by decide

theorem witness_UnknownTypeIsRawEvent :
    (complete [0x81, 0x12]).Holds (0x81 :: [0x12]) ∧ (0x81 : Byte) ≠ 0x83 ∧
      selectsEmit 0xAA (complete [0x81, 0x12]).pos (complete [0x81, 0x12]).dlen
        (complete [0x81, 0x12]).plen := by decide

/-- Two states, different but for the payload, with the analog tag and with another. -/
theorem witness_DecodeIsPure :
    ((complete e1).Holds (0x83 :: e1.tail) ∧
      ({ complete e1 with pos := 0, input := [0x01] } : State).Holds (0x83 :: e1.tail)) ∧
    ((complete [0x81]).Holds (0x81 :: []) ∧
      ({ complete [0x81] with pos := 0 } : State).Holds (0x81 :: [])) := by decide

/-- A step that emits TRUNCATED, and one that emits nothing. -/
theorem witness_EventsNeverInfluenceSteps :
    (∃ t, framerStep 0x77 (complete [0x83]) = .next t) ∧ ∃ t, framerStep 0x11 .reset = .next t :=
  ⟨next_of_after (by decide), next_of_after (by decide)⟩

/-- The hypothesis of the ten statements on the extractions (ExType… to ExDiag…), with the further one of
ExSamplesUnpacksReadings: TX3, exactly the required length, and TD7, no sample area. -/
theorem witness_extractions :
    ((complete tx3).Holds (0x83 :: 0x00 :: 0x00 :: 0x00 :: 0x00 :: 0x02 :: 0x55 :: 0x00 :: tx3.drop 8) ∧
      8 + 2 * popcount (channelMask 0x55) * (0x02 : Byte).toNat ≤ tx3.length) ∧
    ((complete td7).Holds (0x83 :: 0xFF :: 0xFF :: 0xFF :: 0xFF :: 0x00 :: 0xFF :: 0xFF :: []) ∧
      8 + 2 * popcount (channelMask 0xFF) * (0x00 : Byte).toNat ≤ td7.length) := by decide

/-- The four clauses: another tag and a short header for an extraction; EX_SAMPLES one byte short (TD6); DEC_ANALOG
on another tag; DEC_RAW on another tag than its own, and with the analog tag. -/
theorem witness_DecoderOperationsStopUnselected :
    (Instr.exRssi ∈ extractions ∧ (complete [0x81]).pbufRead 0 = some 0x81 ∧
      0 < (complete [0x81]).dlen.toNat ∧ (0x81 : Byte) ≠ 0x83) ∧
    ((complete (e1.take 7)).pbufRead 0 = some 0x83 ∧ 0 < (complete (e1.take 7)).dlen.toNat ∧
      (complete (e1.take 7)).dlen.toNat < 8) ∧
    ((complete (e1.take 9)).pbufRead 0 = some 0x83 ∧ (complete (e1.take 9)).pbufRead 5 = some 0x01 ∧
      (complete (e1.take 9)).pbufRead 6 = some 0x02 ∧ 8 ≤ (complete (e1.take 9)).dlen.toNat ∧
      (complete (e1.take 9)).dlen.toNat < 8 + 2 * popcount (channelMask 0x02) * (0x01 : Byte).toNat) ∧
    (0x81 : Byte) ≠ 0x82 ∧ ((0x81 : Byte) ≠ 0x83 ∨ (0x83 : Byte) = 0x83) := by decide

/-- A complete payload of which PBUF does not hold the byte at offset `a`; no run reaches it. -/
def missing (P : List Byte) (a : Nat) : State :=
  { complete P with mem := (pbuf P).filter fun c => c.1 != a }

/-- The clauses of UnreadablePayloadFaults, each at a boundary of the bytes it reads. -/
theorem witness_UnreadablePayloadFaults :
    (Instr.exRssi ∈ Instr.decAnalog :: .decRaw 0x81 :: extractions ∧ (regs 11 8 8).pbufRead 0 = none) ∧
    ((missing [0x82, 0x01] 1).pbufRead 0 = some 0x82 ∧ (0x82 : Byte) ≠ 0x83 ∧
      1 < (missing [0x82, 0x01] 1).dlen.toNat ∧ (missing [0x82, 0x01] 1).pbufRead 1 = none) ∧
    ((missing e1 7).pbufRead 0 = some 0x83 ∧ 8 ≤ (missing e1 7).dlen.toNat ∧
      Instr.exDiag ∈ extractions ∧ fieldOf .exDiag = some ⟨0, some 7, 7, 0⟩ ∧
      (missing e1 7).pbufRead 7 = none) ∧
    ((missing e1 5).pbufRead 0 = some 0x83 ∧ 8 ≤ (missing e1 5).dlen.toNat ∧
      (missing e1 5).pbufRead 5 = none) ∧
    ((missing e1 9).pbufRead 0 = some 0x83 ∧ (missing e1 9).pbufRead 5 = some 0x01 ∧
      (missing e1 9).pbufRead 6 = some 0x02 ∧
      8 + 2 * popcount (channelMask 0x02) * (0x01 : Byte).toNat ≤ (missing e1 9).dlen.toNat ∧
      9 < 8 + 2 * popcount (channelMask 0x02) * (0x01 : Byte).toNat ∧ 8 ≤ 9 ∧
      (missing e1 9).pbufRead 9 = none) :=
  ⟨by decide, by decide, by decide, by decide, by decide⟩

/-- The first channel of the first set, followed by an enabled one, and the last channel of the last set
(TX2). -/
theorem witness_SampleAreaIsTiled :
    (0 < 2 ∧ 1 < 6 ∧ channelEnabled (channelMask 0x55) 1 = true ∧
      channelEnabled (channelMask 0x55) 3 = true ∧ channelEnabled (channelMask 0x55) 2 = false) ∧
    (1 < 2 ∧ 5 < 6 ∧ channelEnabled (channelMask 0x55) 5 = true) := by decide

/-- The statements with the invariant and a step: StepKeepsInvariant, StepNeverStops,
StepRefinesFramerPseudocode. -/
theorem witness_invariant_steps :
    (({ complete e1 with input := [0x00] } : State).Inv ∧
      ∃ t, step { complete e1 with input := [0x00] } = .next t) ∧
    (({ regs 3 1 0 with input := [0x81] } : State).Inv ∧
      ∃ t, step { regs 3 1 0 with input := [0x81] } = .next t) :=
  ⟨⟨by decide, next_of_after (by decide)⟩, ⟨by decide, next_of_after (by decide)⟩⟩

/-- A memory that no run reaches, written in its middle. -/
theorem witness_StepKeepsMemoryCanonical :
    Memory.wf [(0, 0x81), (7, 0x01)] ∧
      ∃ t, step { regs 9 9 3 with mem := [(0, 0x81), (7, 0x01)], input := [0x44] } = .next t :=
  ⟨by decide, next_of_after (by decide)⟩

/-- EmittedRecordsStayConsistent, EmittedEventsStayLegal and StepLeavesDraft: a step that emits. -/
theorem witness_emitting_step :
    (∀ e ∈ (complete e1).events, e.consistent ∧ e.legal) ∧
      ∃ t, step { complete e1 with input := [0x00] } = .next t :=
  ⟨fun _ h => absurd h List.not_mem_nil, next_of_after (by decide)⟩

theorem witness_SteppingDeliveredBytesIsIngest : State.reset.input = [] := rfl

/-- A frame of one byte, and the frame of E1. -/
theorem witness_deliverable : deliverable [0x81] 0xAA ∧ deliverable e1 0x00 :=
  ⟨⟨by decide, by decide, by decide⟩, ⟨by decide, by decide, by decide⟩⟩

/-- Program P2: garbage, then two frames. -/
theorem witness_BackToBackFramesEmitInOrder :
    (∀ b ∈ ([0x11, 0x22] : List Byte), b ≠ 0x7E) ∧
    ∀ f ∈ ([(e1, 0x5A, []), ([0x81, 0x55], 0xC3, [0x41])] : List (List Byte × Byte × List Byte)),
      deliverable f.1 f.2.1 ∧ ∀ b ∈ f.2.2, b ≠ 0x7E := by
  refine ⟨by decide, fun f hf => ?_⟩
  simp only [List.mem_cons, List.not_mem_nil, or_false] at hf
  rcases hf with rfl | rfl
  · exact ⟨⟨by decide, by decide, by decide⟩, by decide⟩
  · exact ⟨⟨by decide, by decide, by decide⟩, by decide⟩

/-- A whole frame but its checksum byte (R178), and no byte of it. -/
theorem witness_AbandonedFrameEmitsNothing :
    deliverable [0x81] 0xAA ∧ 4 ≤ ([0x81] : List Byte).length + 3 ∧
      0 ≤ ([0x81] : List Byte).length + 3 :=
  ⟨⟨by decide, by decide, by decide⟩, by decide, by decide⟩

/-- ZeroLengthHeaderIsInert and IdleReceiverIgnoresBytes (program P4), and DeclaredLengthStays. -/
theorem witness_plain_bytes :
    (∀ b ∈ ([0x41, 0x42, 0x43] : List Byte), b ≠ 0x7E) ∧ (0xFF : Byte) ≠ 0x7E ∧ (0x01 : Byte) ≠ 0x7E := by
  decide

/-- A frame at POS = 3 is pending where it has a payload to come (R41), and not where its length is 0 (R68;
log 14). -/
theorem test_pending : (regs 3 1 0).pending = true ∧ (regs 3 0 0).pending = false := by decide

/-- A step in each phase. -/
theorem witness_PhasesFollowTable :
    ((regs 1 0 0).Inv ∧ (regs 1 0 0).phase = .lenH ∧ ∃ t, framerStep 0x01 (regs 1 0 0) = .next t) ∧
    ((regs 2 0 0).Inv ∧ (regs 2 0 0).phase = .lenL ∧ ∃ t, framerStep 0x00 (regs 2 0 0) = .next t) ∧
    ((regs 3 1 0).Inv ∧ (regs 3 1 0).phase = .payload ∧ ∃ t, framerStep 0x81 (regs 3 1 0) = .next t) ∧
    ((complete [0x81]).Inv ∧ (complete [0x81]).phase = .cksum ∧
      ∃ t, framerStep 0xAA (complete [0x81]) = .next t) ∧
    (State.reset.Inv ∧ State.reset.phase = .inert ∧ State.reset.pos ≠ 0 ∧
      ∃ t, framerStep 0x11 .reset = .next t) :=
  ⟨⟨by decide, by decide, next_of_after (by decide)⟩, ⟨by decide, by decide, next_of_after (by decide)⟩,
    ⟨by decide, by decide, next_of_after (by decide)⟩, ⟨by decide, by decide, next_of_after (by decide)⟩,
    ⟨by decide, by decide, by decide, next_of_after (by decide)⟩⟩

/-- Two instances, the second just created, and a chunk on it. -/
theorem witness_InstancesAreIsolated :
    0 < (⟨[.reset]⟩ : Platform).receivers.length ∧
    (((⟨[.reset]⟩ : Platform).create.ingest 1 [0x7E, 0x00]).map fun m =>
      m.receivers.map fun s => s.pos) = some [0x1FFFF, 2] := by decide

end Sys2Proof.Tests
end

section
/-!
The FRAMER's statements (spec 40_framer.md): what each operation answers where its row's condition holds, what
a payload in PBUF decodes to, and what the bytes of one frame leave behind.
-/

namespace Sys2Proof.Machine

/-! ### The FRAMER's operations where they are selected (R88 to R92) -/

theorem exec_frSync (s : State) :
    exec .frSync s = .next { s with pos := 1, dlen := 0, plen := 0, mem := [] } := rfl

theorem exec_frLenh {s : State} {b : Byte} (h : selectsLenh b s.pos) :
    exec (.frLenh b) s =
      .next { s with dlen := s.dlen + (zext16 b <<< 8), pos := sat17 (s.pos.toNat + 1) } :=
  if_pos h

theorem exec_frLenl {s : State} {b : Byte} (h : selectsLenl b s.pos) :
    exec (.frLenl b) s =
      .next { s with dlen := s.dlen + zext16 b, pos := sat17 (s.pos.toNat + 1) } :=
  if_pos h

/-- The fill count stays below DLEN, so the store is always inside PBUF (R45). -/
theorem plen_lt_bufCap {s : State} (h : s.plen.toNat < s.dlen.toNat) :
    s.plen.toNat < Config.bufCap := by
  have := s.dlen.isLt
  unfold Config.bufCap
  omega

theorem exec_frPay {s : State} {b : Byte} (h : selectsPay b s.pos s.dlen s.plen) :
    exec (.frPay b) s =
      .next { s with
        mem := Memory.write s.mem s.plen.toNat b
        plen := s.plen + 1
        pos := sat17 (s.pos.toNat + 1) } := by
  simp only [exec, execFrPay, if_pos h, s.pbufWrite_of_lt b (plen_lt_bufCap h.2.2)]
  rfl

theorem exec_frEmit {s : State} {b : Byte} (h : selectsEmit b s.pos s.dlen s.plen) :
    exec (.frEmit b) s = andThen (decodePayloadNow s) fun t => .next t.advance :=
  if_pos h

/-! ### Each condition of R75 selects its own row -/

theorem decodeInput_lenh {b : Byte} {p : Position} (dlen plen : Half) (h : selectsLenh b p) :
    decodeInput b p dlen plen = .frLenh b :=
  (if_neg h.1).trans (if_pos h)

theorem decodeInput_lenl {b : Byte} {p : Position} (dlen plen : Half) (h : selectsLenl b p) :
    decodeInput b p dlen plen = .frLenl b := by
  obtain ⟨hb, rfl⟩ := h
  exact (if_neg hb).trans ((if_neg fun h1 => absurd h1.2 (by decide)).trans (if_pos ⟨hb, rfl⟩))

/-- Beyond offset 2 no length byte is selected. -/
theorem decodeInput_pay {b : Byte} {p : Position} {dlen plen : Half}
    (h : selectsPay b p dlen plen) : decodeInput b p dlen plen = .frPay b := by
  have h1 : ¬ selectsLenh b p := fun ⟨_, hp⟩ => by simpa [hp] using h.2.1
  have h2 : ¬ selectsLenl b p := fun ⟨_, hp⟩ => by simpa [hp] using h.2.1
  rw [decodeInput, if_neg h.1, if_neg h1, if_neg h2, if_pos h]

theorem framerStep_startMarker (s : State) : framerStep Config.startMarker s = exec .frSync s := rfl

theorem framerStep_pay {s : State} {b : Byte} (h : selectsPay b s.pos s.dlen s.plen) :
    framerStep b s =
      .next { s with
        mem := Memory.write s.mem s.plen.toNat b
        plen := s.plen + 1
        pos := sat17 (s.pos.toNat + 1) } := by
  rw [framerStep, State.select, decodeInput_pay h, exec_frPay h]

/-! ### Decoding a payload that PBUF holds (R110 to R122) -/

theorem State.Holds.dlen_eq {s : State} {P : List Byte} (h : s.Holds P) :
    s.dlen = BitVec.ofNat 16 P.length := by
  rw [← h.1]
  simp [State.payloadLength]

/-- DEC_RAW on its own tag emits the payload unchanged (R111). -/
theorem State.Holds.execDecRaw_eq {s : State} {P : List Byte} (h : s.Holds P) (hP : 0 < P.length)
    (ht : Reference.at0 P 0 ≠ Config.analogTag) :
    execDecRaw (Reference.at0 P 0) s = .next (s.emit (.raw P s.dlen)) := by
  simp [execDecRaw, h.byteAt hP, ht, h.bytes]

/-- The pseudocode's sum of the eight header bytes (R121). -/
theorem Reference.diagnosticSum_header (P : List Byte) :
    diagnosticSum ((List.range Config.hdrLen).map (at0 P)) =
      (analogRecord P).diagnosticChecksum := by
  simp [diagnosticSum, analogRecord, Config.hdrLen, List.range_succ, Nat.add_assoc]

/-- PBUF holds an analog report: the tag, and a whole header (the guard of the EX_ rows, R112). -/
structure State.HoldsReport (s : State) (P : List Byte) : Prop where
  holds : s.Holds P
  tag : Reference.at0 P 0 = Config.analogTag
  header : Config.hdrLen ≤ P.length

section
variable {s : State} {P : List Byte} (h : s.HoldsReport P)
include h

/-- The draft is no part of PBUF. -/
theorem State.HoldsReport.withDraft (d : AnalogRecord) :
    State.HoldsReport { s with draft := d } P :=
  ⟨h.holds, h.tag, h.header⟩

theorem State.HoldsReport.inside : insideAnalog s = .ok () := h.holds.inside h.tag h.header

theorem State.HoldsReport.byteAt {i : Nat} (hi : i < Config.hdrLen) :
    s.byteAt i = .ok (Reference.at0 P i) :=
  h.holds.byteAt (hi.trans_le h.header)

theorem State.HoldsReport.halfAt {i : Nat} (hi : i + 1 < Config.hdrLen) :
    s.halfAt i = .ok (Reference.at0 P i ++ Reference.at0 P (i + 1)) :=
  h.holds.halfAt (hi.trans_le h.header)

theorem State.HoldsReport.maskAndSets_eq :
    maskAndSets s = .ok (channelMask (Reference.at0 P 6), Reference.at0 P 5) :=
  maskAndSets_ok.2 ⟨_, h.byteAt (by decide), h.byteAt (by decide), rfl⟩

theorem State.HoldsReport.indicators_eq :
    indicators s = .ok (Reference.at0 P 6, Reference.at0 P 7) := by
  rw [indicators, h.byteAt (by decide), h.byteAt (by decide)]
  rfl

theorem State.HoldsReport.headerBytes :
    s.bytesFrom Config.hdrLen 0 = .ok ((List.range Config.hdrLen).map (Reference.at0 P)) :=
  State.bytesFrom_ok.2 ⟨by simp, fun k hk => by
    simpa using h.byteAt (by simpa using hk)⟩

/-- The sample area of a report that reaches its required length (R120, R136). -/
theorem State.HoldsReport.readSampleArea_eq
    (hreq : requiredLength (channelMask (Reference.at0 P 6)) (Reference.at0 P 5) ≤ P.length) :
    readSampleArea s = .ok (Reference.sampleSets P (channelMask (Reference.at0 P 6))
      (Reference.at0 P 5).toNat) := by
  have hlen : ¬ s.payloadLength <
      requiredLength (channelMask (Reference.at0 P 6)) (Reference.at0 P 5) := by
    rw [h.holds.1]; omega
  simp only [readSampleArea, h.maskAndSets_eq, Except.bind, if_neg hlen]
  exact readSets_all (fun i hi => h.holds.byteAt hi) hreq

/-! What each extraction puts into whatever draft it finds (R113 to R121, R130, R136). -/

theorem State.HoldsReport.execExType_eq (d : AnalogRecord) :
    execExType { s with draft := d } =
      .next { s with draft := { d with frameType := Reference.at0 P 0 } } :=
  fillDraft_of_ok _ h.inside (h.byteAt (by decide))

theorem State.HoldsReport.execExSrc16_eq (d : AnalogRecord) :
    execExSrc16 { s with draft := d } =
      .next { s with draft :=
        { d with sourceAddress16 := Reference.at0 P 1 ++ Reference.at0 P 2 } } :=
  fillDraft_of_ok _ h.inside (h.halfAt (by decide))

theorem State.HoldsReport.execExRssi_eq (d : AnalogRecord) :
    execExRssi { s with draft := d } =
      .next { s with draft := { d with signalStrength := Reference.at0 P 3 } } :=
  fillDraft_of_ok _ h.inside (h.byteAt (by decide))

theorem State.HoldsReport.execExAbcast_eq (d : AnalogRecord) :
    execExAbcast { s with draft := d } =
      .next { s with draft :=
        { d with isAddressBroadcast := addressBroadcast (Reference.at0 P 4) } } :=
  fillDraft_of_ok _ h.inside (h.byteAt (by decide))

theorem State.HoldsReport.execExPbcast_eq (d : AnalogRecord) :
    execExPbcast { s with draft := d } =
      .next { s with draft := { d with isPanBroadcast := panBroadcast (Reference.at0 P 4) } } :=
  fillDraft_of_ok _ h.inside (h.byteAt (by decide))

theorem State.HoldsReport.execExNsets_eq (d : AnalogRecord) :
    execExNsets { s with draft := d } =
      .next { s with draft := { d with totalSampleSets := Reference.at0 P 5 } } :=
  fillDraft_of_ok _ h.inside (h.byteAt (by decide))

theorem State.HoldsReport.execExChind_eq (d : AnalogRecord) :
    execExChind { s with draft := d } =
      .next { s with draft :=
        { d with
          channelIndicatorHigh := Reference.at0 P 6
          channelIndicatorLow := Reference.at0 P 7 } } :=
  fillDraft_of_ok (s := { s with draft := d }) _ h.inside (h.withDraft d).indicators_eq

theorem State.HoldsReport.execExChmask_eq (d : AnalogRecord) :
    execExChmask { s with draft := d } =
      .next { s with draft :=
        { d with
          enabledChannels := channelMask (Reference.at0 P 6)
          analogChannelCount := BitVec.ofNat 3 (popcount (channelMask (Reference.at0 P 6))) } } :=
  fillDraft_of_ok _ h.inside (h.byteAt (by decide))

theorem State.HoldsReport.execExSamples_eq (d : AnalogRecord)
    (hreq : requiredLength (channelMask (Reference.at0 P 6)) (Reference.at0 P 5) ≤ P.length) :
    execExSamples { s with draft := d } =
      .next { s with draft :=
        { d with
          sampleSets := Reference.sampleSets P (channelMask (Reference.at0 P 6))
            (Reference.at0 P 5).toNat } } :=
  fillDraft_of_ok _ h.inside ((h.withDraft d).readSampleArea_eq hreq)

theorem State.HoldsReport.execExDiag_eq (d : AnalogRecord) :
    execExDiag { s with draft := d } =
      .next { s with draft :=
        { d with
          diagnosticChecksum :=
            diagnosticSum ((List.range Config.hdrLen).map (Reference.at0 P)) } } :=
  fillDraft_of_ok _ h.inside (h.withDraft d).headerBytes

/-- The ten extractions build the pseudocode's record, over whatever draft they find (R122). -/
theorem State.HoldsReport.extractRecord_eq
    (hreq : requiredLength (channelMask (Reference.at0 P 6)) (Reference.at0 P 5) ≤ P.length) :
    extractRecord s = .next { s with draft := Reference.analogRecord P } := by
  have hrun : ∀ d : AnalogRecord, extractRecord { s with draft := d } =
      .next { s with draft := Reference.analogRecord P } := fun d => by
    simp only [extractRecord, runAll_cons, runAll_nil, andThen_next, h.execExType_eq,
      h.execExSrc16_eq, h.execExRssi_eq, h.execExAbcast_eq, h.execExPbcast_eq, h.execExNsets_eq,
      h.execExChind_eq, h.execExChmask_eq, h.execExSamples_eq _ hreq, h.execExDiag_eq,
      Reference.diagnosticSum_header]
    rfl
  exact hrun s.draft

/-- DEC_ANALOG on a whole header: the record where the payload reaches the required length, the
TRUNCATED event where it does not (R120, R122). -/
theorem State.HoldsReport.execDecAnalog_eq :
    execDecAnalog s = .next (s.emit
      (if P.length < requiredLength (channelMask (Reference.at0 P 6)) (Reference.at0 P 5) then
        .truncated Config.analogTag s.dlen
          (BitVec.ofNat 16 (requiredLength (channelMask (Reference.at0 P 6)) (Reference.at0 P 5)))
      else .analog (Reference.analogRecord P))) := by
  have htag : s.byteAt 0 = .ok Config.analogTag := h.tag ▸ h.byteAt (by decide)
  have hhdr : ¬ P.length < Config.hdrLen := by have := h.header; omega
  simp only [execDecAnalog, htag, h.maskAndSets_eq, h.holds.1, ne_eq, not_true_eq_false,
    if_false, if_neg hhdr]
  split
  · rfl
  · simp only [emitRecord, h.extractRecord_eq (by omega)]

end

/-- DEC_ANALOG on a tagged payload without a whole header (R112). -/
theorem State.Holds.execDecAnalog_short {s : State} {P : List Byte} (h : s.Holds P)
    (hP : 0 < P.length) (ht : Reference.at0 P 0 = Config.analogTag)
    (hlen : P.length < Config.hdrLen) :
    execDecAnalog s =
      .next (s.emit (.truncated Config.analogTag s.dlen (BitVec.ofNat 16 Config.hdrLen))) := by
  simp [execDecAnalog, h.byteAt hP, ht, h.1, hlen]

/-! The four answers of the pseudocode, in the model's own terms (R110). -/

theorem Reference.decodeEvent_of_untagged {P : List Byte} (ht : at0 P 0 ≠ Config.analogTag) :
    decodeEvent P = .raw P (BitVec.ofNat 16 P.length) :=
  if_pos ht

theorem Reference.decodeEvent_of_shortHeader {P : List Byte} (ht : at0 P 0 = Config.analogTag)
    (hlen : P.length < Config.hdrLen) :
    decodeEvent P = .truncated Config.analogTag (BitVec.ofNat 16 P.length)
      (BitVec.ofNat 16 Config.hdrLen) :=
  (if_neg (not_not.2 ht)).trans ((if_pos hlen).trans (by rw [ht]; rfl))

theorem Reference.decodeEvent_of_header {P : List Byte} (ht : at0 P 0 = Config.analogTag)
    (hlen : Config.hdrLen ≤ P.length) :
    decodeEvent P =
      if P.length < requiredLength (channelMask (at0 P 6)) (at0 P 5) then
        .truncated Config.analogTag (BitVec.ofNat 16 P.length)
          (BitVec.ofNat 16 (requiredLength (channelMask (at0 P 6)) (at0 P 5)))
      else .analog (analogRecord P) :=
  (if_neg (not_not.2 ht)).trans ((if_neg (not_lt.2 hlen)).trans (by rw [ht]; rfl))

/-- The DECODER computes the pseudocode's `Decode` of the payload that PBUF holds (R92, R110). -/
theorem State.Holds.decodePayloadNow_eq {s : State} {P : List Byte} (h : s.Holds P)
    (hP : 0 < P.length) :
    decodePayloadNow s = .next (s.emit (Reference.decodeEvent P)) := by
  simp only [decodePayloadNow, h.byteAt hP]
  by_cases ht : Reference.at0 P 0 = Config.analogTag
  · rw [if_pos ht]
    by_cases hlen : P.length < Config.hdrLen
    · rw [h.execDecAnalog_short hP ht hlen, Reference.decodeEvent_of_shortHeader ht hlen, h.dlen_eq]
    · rw [State.HoldsReport.execDecAnalog_eq ⟨h, ht, not_lt.1 hlen⟩,
        Reference.decodeEvent_of_header ht (not_lt.1 hlen), h.dlen_eq]
  · rw [if_neg ht, h.execDecRaw_eq hP ht, Reference.decodeEvent_of_untagged ht, h.dlen_eq]

/-! ### The position below its saturation (R22, R95) -/

theorem sat17_of_le {x : Nat} (h : x ≤ Config.posMax) : sat17 x = BitVec.ofNat 17 x := by
  rw [sat17, min_eq_left h]

/-- POS rises by one where it is not saturated (R95). -/
theorem State.advance_pos_toNat {s : State} (h : s.pos.toNat < Config.posMax) :
    s.advance.pos.toNat = s.pos.toNat + 1 := by
  rw [State.advance_pos, sat17_toNat, min_eq_left h]

/-! ### The declared length (R89, R90, R24) -/

theorem zext16_toNat (b : Byte) : (zext16 b).toNat = b.toNat := by
  have := b.isLt
  simp only [zext16, BitVec.toNat_setWidth]
  omega

/-- The byte shifted into the high half loses no bit. -/
theorem zext16_shift_toNat (b : Byte) : (zext16 b <<< 8).toNat = b.toNat * 256 := by
  have := b.isLt
  rw [BitVec.toNat_shiftLeft, zext16_toNat, Nat.shiftLeft_eq]
  omega

theorem append_toNat (hi lo : Byte) : (hi ++ lo : Half).toNat = hi.toNat * 256 + lo.toNat := by
  rw [BitVec.toNat_append, ← Nat.shiftLeft_add_eq_or_of_lt lo.isLt, Nat.shiftLeft_eq]

/-- The two additions of FR_LENH and FR_LENL to a cleared DLEN give `hi ‖ lo` (R24). -/
theorem zext16_shift_add (hi lo : Byte) : (zext16 hi <<< 8) + zext16 lo = hi ++ lo := by
  have h1 := hi.isLt
  have h2 := lo.isLt
  apply BitVec.eq_of_toNat_eq
  rw [BitVec.toNat_add, zext16_shift_toNat, zext16_toNat, append_toNat]
  omega

/-- The two length bytes of a frame declare its payload's length (R66). -/
theorem lengthBytes_toNat {n : Nat} (h : n < 65536) :
    (BitVec.ofNat 8 (n / 256) ++ BitVec.ofNat 8 n : Half).toNat = n := by
  rw [append_toNat, BitVec.toNat_ofNat, BitVec.toNat_ofNat]
  omega

/-! ### The bytes of one frame (R66, R101) -/

/-- PBUF listing the bytes `Q` from offset 0. -/
def Memory.ofBytes (Q : List Byte) : Memory := Q.zipIdx.map Prod.swap

theorem Memory.offsets_ofBytes (Q : List Byte) :
    (Memory.ofBytes Q).map Prod.fst = List.range Q.length := by
  rw [Memory.ofBytes, List.map_map, List.range_eq_range', ← List.zipIdx_map_snd]
  rfl

/-- Storing a byte at the fill count appends it to PBUF. -/
theorem Memory.write_ofBytes (Q : List Byte) (b : Byte) :
    Memory.write (Memory.ofBytes Q) Q.length b = Memory.ofBytes (Q ++ [b]) := by
  rw [(Memory.write_range (Memory.offsets_ofBytes Q) b).1]
  simp [Memory.ofBytes, List.zipIdx_append]

/-- `s` inside a frame of declared length `dlen`, the payload bytes `Q` taken so far. -/
def State.filling (s : State) (dlen : Half) (Q : List Byte) : State :=
  { s with
    pos := BitVec.ofNat 17 (Q.length + 3)
    dlen := dlen
    plen := BitVec.ofNat 16 Q.length
    mem := Memory.ofBytes Q }

/-- A payload byte below the declared length is taken by FR_PAY (R91). -/
theorem State.framerStep_filling (s : State) {dlen : Half} {Q : List Byte} {b : Byte}
    (hb : b ≠ Config.startMarker) (hQ : Q.length < dlen.toNat) :
    framerStep b (s.filling dlen Q) = .next (s.filling dlen (Q ++ [b])) := by
  have hd := dlen.isLt
  have hn : (s.filling dlen Q).plen.toNat = Q.length := Nat.mod_eq_of_lt (by omega)
  have hp : (s.filling dlen Q).pos.toNat = Q.length + 3 := Nat.mod_eq_of_lt (by omega)
  have hsel : selectsPay b (s.filling dlen Q).pos (s.filling dlen Q).dlen
      (s.filling dlen Q).plen := ⟨hb, by omega, hn.symm ▸ hQ⟩
  have hsat : sat17 (Q.length + 3 + 1) = BitVec.ofNat 17 ((Q ++ [b]).length + 3) := by
    rw [sat17_of_le (by unfold Config.posMax; omega), List.length_append, List.length_singleton,
      Nat.add_right_comm]
  rw [framerStep_pay hsel, hn, hp, hsat]
  simp [State.filling, Memory.write_ofBytes, BitVec.ofNat_add]

/-- The bytes of a payload, up to its declared length, fill PBUF and do nothing else (R91). -/
theorem State.ingest_filling (s : State) {dlen : Half} (Q R : List Byte)
    (hR : ∀ b ∈ R, b ≠ Config.startMarker) (hlen : Q.length + R.length ≤ dlen.toNat) :
    ingest R (s.filling dlen Q) = .next (s.filling dlen (Q ++ R)) := by
  induction R generalizing Q with
  | nil => simp [ingest]
  | cons b R ih =>
    rw [List.length_cons] at hlen
    have hnext : (Q ++ [b]).length + R.length ≤ dlen.toNat := by
      rw [List.length_append, List.length_singleton]
      omega
    rw [ingest, s.framerStep_filling (hR b (by simp)) (by omega), andThen_next,
      ih (Q ++ [b]) (fun c hc => hR c (by simp [hc])) hnext, List.append_assoc, List.singleton_append]

/-- A marker begins a new frame before the bytes after it are taken (R88, R99). -/
theorem ingest_startMarker (s : State) (bytes : List Byte) :
    ingest (Config.startMarker :: bytes) s =
      ingest bytes { s with pos := 1, dlen := 0, plen := 0, mem := [] } := rfl

/-- The byte after a marker is the high byte of the length (R89). -/
theorem State.framerStep_afterMarker (s : State) {hi : Byte} (hhi : hi ≠ Config.startMarker) :
    framerStep hi { s with pos := 1, dlen := 0, plen := 0, mem := [] } =
      .next { s with pos := 2, dlen := zext16 hi <<< 8, plen := 0, mem := [] } := by
  rw [framerStep, State.select, decodeInput_lenh _ _ ⟨hhi, rfl⟩, exec_frLenh ⟨hhi, rfl⟩]
  simp only [zero_add]
  rfl

/-- The byte after that completes the header (R90). -/
theorem State.framerStep_afterHigh (s : State) {hi lo : Byte} (hlo : lo ≠ Config.startMarker) :
    framerStep lo { s with pos := 2, dlen := zext16 hi <<< 8, plen := 0, mem := [] } =
      .next (s.filling (hi ++ lo) []) := by
  rw [framerStep, State.select, decodeInput_lenl _ _ ⟨hlo, rfl⟩, exec_frLenl ⟨hlo, rfl⟩,
    zext16_shift_add]
  rfl

/-- A header leaves the receiver at the start of the payload it declares (R66, R24). -/
theorem State.ingest_header (s : State) {hi lo : Byte} (hhi : hi ≠ Config.startMarker)
    (hlo : lo ≠ Config.startMarker) (bytes : List Byte) :
    ingest (Config.startMarker :: hi :: lo :: bytes) s =
      ingest bytes (s.filling (hi ++ lo) []) := by
  rw [ingest_startMarker, ingest, s.framerStep_afterMarker hhi, andThen_next, ingest,
    s.framerStep_afterHigh hlo, andThen_next]

/-- A byte sequence may be ingested in two parts (R35). -/
theorem ingest_append (xs ys : List Byte) (s : State) :
    ingest (xs ++ ys) s = andThen (ingest xs s) (ingest ys) := by
  induction xs generalizing s with
  | nil => rfl
  | cons b xs ih =>
    rw [List.cons_append, ingest, ingest, andThen_assoc]
    exact congrArg _ (funext ih)

/-- The bytes of a deliverable frame but its checksum write the FRAMER's registers and PBUF, and nothing
else: no event is emitted (R101). -/
theorem ingest_part_of_frame {P : List Byte} {ck : Byte} {k : Nat} (s : State)
    (hd : deliverable P ck) (hk : k ≤ P.length + 3) :
    ∃ pos dlen plen mem, ingest ((wireFrame P ck).take k) s =
      .next { s with pos := pos, dlen := dlen, plen := plen, mem := mem } := by
  obtain ⟨-, hlen, hplain⟩ := hd
  have hhi : BitVec.ofNat 8 (P.length / 256) ≠ Config.startMarker :=
    hplain _ (by simp [wireFrame])
  have hlo : BitVec.ofNat 8 P.length ≠ Config.startMarker := hplain _ (by simp [wireFrame])
  match k with
  | 0 => exact ⟨s.pos, s.dlen, s.plen, s.mem, rfl⟩
  | 1 => exact ⟨1, 0, 0, [], rfl⟩
  | 2 =>
    refine ⟨2, zext16 (BitVec.ofNat 8 (P.length / 256)) <<< 8, 0, [], ?_⟩
    show ingest [Config.startMarker, BitVec.ofNat 8 (P.length / 256)] s = _
    rw [ingest_startMarker, ingest, s.framerStep_afterMarker hhi]
    rfl
  | j + 3 =>
    have htake : (wireFrame P ck).take (j + 3) = Config.startMarker ::
        BitVec.ofNat 8 (P.length / 256) :: BitVec.ofNat 8 P.length :: P.take j := by
      simp [wireFrame, List.take_append_of_le_length (show j ≤ P.length by omega)]
    have hpay : ∀ b ∈ P.take j, b ≠ Config.startMarker := fun b hb =>
      hplain b (by simp [wireFrame, List.mem_of_mem_take hb])
    rw [htake, s.ingest_header hhi hlo, s.ingest_filling [] _ hpay
      (by rw [lengthBytes_toNat hlen]; simp)]
    exact ⟨_, _, _, _, rfl⟩

/-! ### The obligations -/

/-- Settles O12: the DECODER's answer on the payload that PBUF holds, under FR_EMIT's condition. -/
theorem frEmitHandsPayloadToDecoder : Obligations.FrEmitHandsPayloadToDecoder := by
  intro s P b hP hb hdlen hplen hpos
  have hlen : 0 < P.length := hP.1 ▸ hdlen
  have hmax : s.pos.toNat < Config.posMax := by
    have := s.dlen.isLt
    unfold Config.posMax
    omega
  refine ⟨⟨(s.emit (Reference.decodeEvent P)).advance, ?_, rfl, ?_⟩, framerStep_startMarker s⟩
  · rw [exec_frEmit ⟨hb, hdlen, hplen, hpos⟩, hP.decodePayloadNow_eq hlen, andThen_next]
  · exact State.advance_pos_toNat hmax

/-- Settles O55: a part of a frame emits nothing, and the marker clears what it has written. -/
theorem abandonedFrameEmitsNothing : Obligations.AbandonedFrameEmitsNothing := by
  intro P ck k s hd hk
  obtain ⟨pos, dlen, plen, mem, hpart⟩ := ingest_part_of_frame s hd hk
  rw [ingest_append, hpart]
  rfl

/-- Settles O8: PLEN = 0 leaves no offset of PBUF readable (R46). -/
theorem frSyncStartsNewFrame : Obligations.FrSyncStartsNewFrame :=
  fun s => ⟨rfl, _, exec_frSync s, rfl, fun _ => State.pbufRead_of_ge (Nat.zero_le _), rfl⟩

/-- Settles O9: DLEN is 0 at offset 1 where the invariant holds (R24). -/
theorem frLenhAddsHighByte : Obligations.FrLenhAddsHighByte := by
  intro s b hb hpos
  refine ⟨?_, fun ⟨_, hlength, _⟩ => ?_⟩
  · rw [exec_frLenh ⟨hb, hpos⟩, hpos]
    rfl
  · rw [hlength.1 (by simp [hpos]), zero_add, ← zext16_shift_add]
    exact (BitVec.add_zero _).symm

/-- Settles O10: DLEN is a multiple of 256 at offset 2 where the invariant holds (R24), so a byte fits
below it. -/
theorem frLenlAddsLowByte : Obligations.FrLenlAddsLowByte := by
  intro s b hb hpos
  refine ⟨?_, fun ⟨_, hlength, _⟩ => ?_⟩
  · rw [exec_frLenl ⟨hb, hpos⟩, hpos]
    rfl
  · have hlow := hlength.2 hpos
    have hd := s.dlen.isLt
    have hlt := b.isLt
    rw [BitVec.toNat_add, zext16_toNat]
    omega

/-- Settles O11: the bound on the offset and the position follow from PLEN < DLEN and R27. -/
theorem frPayAppendsByte : Obligations.FrPayAppendsByte := by
  intro s b hb hpos hlt
  have hd := s.dlen.isLt
  have hp : s.Inv → s.pos.toNat = s.plen.toNat + 3 := fun ⟨hfill, _, _⟩ => by omega
  have hplen : (s.plen + 1).toNat = s.plen.toNat + 1 := by
    refine BitVec.toNat_add_of_lt ?_
    show s.plen.toNat + 1 < 2 ^ 16
    omega
  refine ⟨plen_lt_bufCap hlt, hp, _, exec_frPay ⟨hb, hpos, hlt⟩, rfl, hplen, ?_, fun hinv => ?_⟩
  · rw [State.pbufRead_of_lt (by rw [hplen]; omega)]
    exact Memory.read_write_same _ _ _
  · have := hp hinv
    exact State.advance_pos_toNat (by unfold Config.posMax; omega)

/-- Settles O54: FR_SYNC overwrites each of the four. -/
theorem markerResynchronises : Obligations.MarkerResynchronises :=
  fun s _ _ _ _ bytes => ⟨exec_frSync s, (ingest_startMarker _ bytes).trans
    (ingest_startMarker s bytes).symm⟩

end Sys2Proof.Machine
end

section
/-!
The sample area's statement (spec 42_sample_extractor.md, R133, R134): how far the rank, and with it the offset of
a reading, moves from one enabled channel to the next and to the end of a set.
-/

namespace Sys2Proof.Machine

section
variable {en : BitVec 6} {c d : Nat}

/-- Channels that are not enabled leave the rank as it is. -/
theorem rank_eq_of_none_enabled (hcd : c ≤ d)
    (hgap : ∀ i, c ≤ i → i < d → channelEnabled en i = false) : rank en d = rank en c := by
  induction d, hcd using Nat.le_induction with
  | base => rfl
  | succ d hcd ih =>
    have hd : channelEnabled en d = false := hgap d hcd d.lt_succ_self
    rw [rank_succ, hd, ih fun i hci hid => hgap i hci (hid.trans d.lt_succ_self)]
    rfl

/-- From an enabled channel over channels that are not, the rank rises by one. -/
theorem rank_eq_succ_of_next (he : channelEnabled en c = true) (hcd : c < d)
    (hgap : ∀ i, c < i → i < d → channelEnabled en i = false) : rank en d = rank en c + 1 := by
  rw [rank_eq_of_none_enabled hcd hgap, rank_succ, if_pos he]

/-- The last enabled channel has the highest rank, n - 1 (R133). -/
theorem popcount_eq_rank_succ_of_last (hc : c < 6) (he : channelEnabled en c = true)
    (hlast : ∀ i, c < i → i < 6 → channelEnabled en i = false) : popcount en = rank en c + 1 := by
  rw [popcount_eq_rank, rank_eq_succ_of_next he hc hlast]

end

/-- The offset's formula with the header length in numbers (R134). -/
theorem sampleOffset_eq (en : BitVec 6) (k c : Nat) :
    sampleOffset en k c = 8 + 2 * popcount en * k + 2 * rank en c := rfl

/-- Settles O40: each clause is one about ranks, as the offset is linear in the rank within a set. -/
theorem sampleAreaIsTiled : Obligations.SampleAreaIsTiled := by
  intro en S k c hk hc he
  rw [← rank_eq_countP]
  refine ⟨rank_lt_popcount hc he, ?formula, ?setStart, sampleOffset_bound k.lt_succ_self hc he,
    sampleOffset_bound hk hc he, ?adjacent, ?last⟩
  case formula => rw [sampleOffset_eq]; ring
  case setStart => rw [sampleOffset_eq]; exact Nat.le_add_right _ _
  case adjacent =>
    intro c' hcc' _ _ hgap
    rw [sampleOffset_eq, sampleOffset_eq, rank_eq_succ_of_next he hcc' hgap]
    ring
  case last =>
    intro hlast
    have hn := popcount_eq_rank_succ_of_last hc he hlast
    rw [sampleOffset_eq, Nat.mul_succ]
    omega

end Sys2Proof.Machine
end

section
/-!
The statements on exceptions (spec 60_exceptions.md, R151, R155): what the FRAMER answers where each of its rows is
selected, and that neither an extraction nor the DECODER nor a step of the FRAMER reads the events already emitted.
-/

namespace Sys2Proof.Machine

/-! ### The FRAMER's step on each row of R75 -/

/-- Beyond a complete payload neither a length byte nor a payload byte is selected. -/
theorem decodeInput_emit {b : Byte} {p : Position} {dlen plen : Half}
    (h : selectsEmit b p dlen plen) : decodeInput b p dlen plen = .frEmit b := by
  obtain ⟨hb, hdlen, hplen, hp⟩ := h
  have h1 : ¬ selectsLenh b p := fun ⟨_, h1⟩ => by subst h1; simp at hp
  have h2 : ¬ selectsLenl b p := fun ⟨_, h2⟩ => by subst h2; simp at hp
  have h3 : ¬ selectsPay b p dlen plen := fun ⟨_, _, hlt⟩ => by simp [hplen] at hlt
  rw [decodeInput, if_neg hb, if_neg h1, if_neg h2, if_neg h3, if_pos ⟨hb, hdlen, hplen, hp⟩]

theorem decodeInput_skip {b : Byte} {p : Position} {dlen plen : Half}
    (h : selectsSkip b p dlen plen) : decodeInput b p dlen plen = .frSkip b := by
  obtain ⟨hb, h1, h2, h3, h4⟩ := h
  rw [decodeInput, if_neg hb, if_neg h1, if_neg h2, if_neg h3, if_neg h4]

theorem framerStep_lenh {s : State} {b : Byte} (h : selectsLenh b s.pos) :
    framerStep b s =
      .next { s with dlen := s.dlen + (zext16 b <<< 8), pos := sat17 (s.pos.toNat + 1) } := by
  rw [framerStep, State.select, decodeInput_lenh _ _ h, exec_frLenh h]

theorem framerStep_lenl {s : State} {b : Byte} (h : selectsLenl b s.pos) :
    framerStep b s =
      .next { s with dlen := s.dlen + zext16 b, pos := sat17 (s.pos.toNat + 1) } := by
  rw [framerStep, State.select, decodeInput_lenl _ _ h, exec_frLenl h]

/-- FR_EMIT appends the DECODER's event and advances POS (R92). -/
theorem framerStep_emit {s : State} {b : Byte} {ev : Event}
    (h : selectsEmit b s.pos s.dlen s.plen) (hev : decodePayloadNow s = .next (s.emit ev)) :
    framerStep b s = .next (s.emit ev).advance := by
  rw [framerStep, State.select, decodeInput_emit h, exec_frEmit h, hev, andThen_next]

theorem framerStep_skip {s : State} {b : Byte} (h : selectsSkip b s.pos s.dlen s.plen) :
    framerStep b s = .next { s with pos := sat17 (s.pos.toNat + 1) } := by
  rw [framerStep, State.select, decodeInput_skip h]
  exact if_pos h

/-! ### Reads do not look at the events -/

theorem State.bytesFrom_events (s : State) (evs : List Event) (count i : Nat) :
    ({ s with events := evs } : State).bytesFrom count i = s.bytesFrom count i := by
  induction count generalizing i with
  | zero => rfl
  | succ count ih => simp only [State.bytesFrom, ih]; rfl

theorem readSets_events (s : State) (evs : List Event) (en : BitVec 6) (count k : Nat) :
    readSets { s with events := evs } en count k = readSets s en count k := by
  induction count generalizing k with
  | zero => rfl
  | succ count ih => simp only [readSets, ih]; rfl

theorem readSampleArea_events (s : State) (evs : List Event) :
    readSampleArea { s with events := evs } = readSampleArea s := by
  simp only [readSampleArea, readSets_events]; rfl

/-! ### The extractions do not look at the events -/

/-- With any other event list in the state, the operation answers the same next state but for that list. -/
def IgnoresEvents (f : State → Result) : Prop :=
  ∀ (s t : State) (evs : List Event), f s = .next t →
    f { s with events := evs } = .next { t with events := evs }

/-- An extraction looks at the state through its read alone. -/
theorem fillDraft_ignoresEvents {α : Type} {read : State → Except Fault α}
    (put : α → AnalogRecord → AnalogRecord)
    (hread : ∀ (s : State) (evs : List Event), read { s with events := evs } = read s) :
    IgnoresEvents fun s => fillDraft s (read s) put := by
  intro s t evs h
  obtain ⟨v, hin, hv, rfl⟩ := fillDraft_next h
  exact fillDraft_of_ok put hin ((hread s evs).trans hv)

theorem runAll_ignoresEvents {fs : List (State → Result)} (hfs : ∀ f ∈ fs, IgnoresEvents f) :
    IgnoresEvents (runAll fs) := by
  induction fs with
  | nil => rintro s _ evs ⟨⟩; rfl
  | cons f fs ih =>
    obtain ⟨hf, hrest⟩ := List.forall_mem_cons.1 hfs
    intro s t evs h
    obtain ⟨u, hu, ht⟩ := andThen_eq_next.1 h
    rw [runAll_cons, hf s u evs hu, andThen_next, ih hrest u t evs ht]

theorem extractRecord_ignoresEvents : IgnoresEvents extractRecord := by
  refine runAll_ignoresEvents ?_
  simp only [List.forall_mem_cons, List.not_mem_nil, false_imp_iff, implies_true, and_true]
  exact ⟨fillDraft_ignoresEvents _ fun _ _ => rfl, fillDraft_ignoresEvents _ fun _ _ => rfl,
    fillDraft_ignoresEvents _ fun _ _ => rfl, fillDraft_ignoresEvents _ fun _ _ => rfl,
    fillDraft_ignoresEvents _ fun _ _ => rfl, fillDraft_ignoresEvents _ fun _ _ => rfl,
    fillDraft_ignoresEvents _ fun _ _ => rfl, fillDraft_ignoresEvents _ fun _ _ => rfl,
    fillDraft_ignoresEvents _ readSampleArea_events,
    fillDraft_ignoresEvents _ fun s evs => s.bytesFrom_events evs _ _⟩

/-! ### The DECODER does not look at the events -/

/-! The three answers of DEC_ANALOG and the one of DEC_RAW, each under its guards (R110 to R112, R120, R122). -/

section
variable {s : State}

theorem execDecAnalog_of_shortHeader (ht : s.byteAt 0 = .ok Config.analogTag)
    (hlen : s.payloadLength < Config.hdrLen) :
    execDecAnalog s =
      .next (s.emit (.truncated Config.analogTag s.dlen (BitVec.ofNat 16 Config.hdrLen))) := by
  simp [execDecAnalog, ht, hlen]

theorem execDecAnalog_of_shortArea {en : BitVec 6} {sets : Byte}
    (ht : s.byteAt 0 = .ok Config.analogTag) (hlen : Config.hdrLen ≤ s.payloadLength)
    (hms : maskAndSets s = .ok (en, sets)) (hreq : s.payloadLength < requiredLength en sets) :
    execDecAnalog s = .next (s.emit
      (.truncated Config.analogTag s.dlen (BitVec.ofNat 16 (requiredLength en sets)))) := by
  simp [execDecAnalog, ht, hms, hreq, not_lt.2 hlen]

theorem execDecAnalog_of_extracted {en : BitVec 6} {sets : Byte} {u : State}
    (ht : s.byteAt 0 = .ok Config.analogTag) (hlen : Config.hdrLen ≤ s.payloadLength)
    (hms : maskAndSets s = .ok (en, sets)) (hreq : requiredLength en sets ≤ s.payloadLength)
    (hu : extractRecord s = .next u) :
    execDecAnalog s = .next (s.emit (.analog u.draft)) := by
  simp [execDecAnalog, ht, hms, emitRecord, hu, not_lt.2 hlen, not_lt.2 hreq]

theorem execDecRaw_of_bytes {tag : Byte} {bytes : List Byte} (ht : s.byteAt 0 = .ok tag)
    (htag : tag ≠ Config.analogTag) (hbytes : s.bytesFrom s.payloadLength 0 = .ok bytes) :
    execDecRaw tag s = .next (s.emit (.raw bytes s.dlen)) := by
  simp [execDecRaw, ht, htag, hbytes]

end

/-- With any other event list in the state, the operation emits the same event. -/
def EmitsAlike (f : State → Result) : Prop :=
  ∀ (s : State) (ev : Event) (evs : List Event), f s = .next (s.emit ev) →
    f { s with events := evs } = .next (State.emit { s with events := evs } ev)

/-- An emitted event can be read off the state after it. -/
theorem State.emit_injective (s : State) : Function.Injective s.emit := by
  intro ev ev' h
  simpa [State.emit] using h

theorem execDecAnalog_emitsAlike : EmitsAlike execDecAnalog := by
  intro s ev evs h
  obtain ⟨ht, ⟨hlen, hev⟩ | ⟨en, sets, hlen, hms, ⟨hreq, hev⟩ | ⟨hreq, u, hu, hev⟩⟩⟩ :=
    execDecAnalog_next h
  all_goals cases s.emit_injective hev
  · exact execDecAnalog_of_shortHeader ht hlen
  · exact execDecAnalog_of_shortArea ht hlen hms hreq
  · exact execDecAnalog_of_extracted (u := { u with events := evs }) ht hlen hms hreq
      (extractRecord_ignoresEvents s u evs hu)

theorem execDecRaw_emitsAlike (tag : Byte) : EmitsAlike (execDecRaw tag) := by
  intro s ev evs h
  obtain ⟨ht, htag, bytes, hbytes, hev⟩ := execDecRaw_next h
  cases s.emit_injective hev
  exact execDecRaw_of_bytes ht htag ((s.bytesFrom_events evs _ _).trans hbytes)

/-- Decode dispatches on payload byte 0, which is no event (R76). -/
theorem decodePayloadNow_emitsAlike : EmitsAlike decodePayloadNow := by
  intro s ev evs h
  have hbyte : State.byteAt { s with events := evs } 0 = s.byteAt 0 := rfl
  rw [decodePayloadNow, hbyte]
  rw [decodePayloadNow] at h
  cases ht : s.byteAt 0 with
  | error f => rw [ht] at h; cases h
  | ok tag =>
    simp only [ht] at h ⊢
    split at h
    next htag => rw [if_pos htag]; exact execDecAnalog_emitsAlike s ev evs h
    next htag => rw [if_neg htag]; exact execDecRaw_emitsAlike tag s ev evs h

/-- An operation that emits nothing adds the empty list of events. -/
theorem exists_new_of_silent {s t : State} {evs : List Event} {r : Result}
    (hevents : t.events = s.events) (hr : r = .next { t with events := evs }) :
    ∃ new : List Event, new.length ≤ 1 ∧ t.events = s.events ++ new ∧
      r = .next { t with events := evs ++ new } :=
  ⟨[], Nat.zero_le 1, by simpa using hevents, by simpa using hr⟩

/-! ### The obligations -/

/-- Settles O25: `Decode` of an untagged payload is the RAW event (R111), and FR_EMIT appends it. -/
theorem unknownTypeIsRawEvent : Obligations.UnknownTypeIsRawEvent := by
  intro s tag rest b hP htag hsel
  have hev : decodePayloadNow s = .next (s.emit (.raw (tag :: rest) s.dlen)) := by
    rw [hP.decodePayloadNow_eq (Nat.succ_pos _),
      Reference.decodeEvent_of_untagged (P := tag :: rest) htag, hP.dlen_eq]
  exact ⟨_, framerStep_emit hsel hev, rfl⟩

/-- Settles O27: only FR_EMIT adds an event, the DECODER's, and the DECODER does not look at the events. -/
theorem eventsNeverInfluenceSteps : Obligations.EventsNeverInfluenceSteps := by
  intro s t b evs h
  obtain ⟨rfl, rfl⟩ | ⟨hc, rfl⟩ | ⟨hc, rfl⟩ | ⟨hc, rfl⟩ | ⟨hc, ev, hev, rfl⟩ | ⟨hc, rfl⟩ :=
    framerStep_cases h
  · exact exists_new_of_silent rfl rfl
  · exact exists_new_of_silent rfl (framerStep_lenh hc)
  · exact exists_new_of_silent rfl (framerStep_lenl hc)
  · exact exists_new_of_silent rfl (framerStep_pay hc)
  · exact ⟨[ev], le_rfl, rfl, framerStep_emit hc (decodePayloadNow_emitsAlike s ev evs hev)⟩
  · exact exists_new_of_silent rfl (framerStep_skip hc)

end Sys2Proof.Machine
end

section
/-!
The operation map's statements (spec 30_encoding.md R65, R75, R76): decoding and encoding are inverse to each other
on the operations whose row's condition holds, so every byte selects exactly one operation.
-/

namespace Sys2Proof.Machine

/-! ### The codes of the extractions (log 7) -/

/-- The place of an extraction is its code. -/
theorem encode_of_fieldOf {i : Instr} {f : Field} (h : fieldOf i = some f) : encode i = .field f := by
  cases i <;> cases h <;> rfl

/-- A place is decoded only to an extraction that reads it. -/
theorem decodeField_ok {f : Field} {i : Instr} (h : decodeField f = .ok i) :
    i ∈ extractions ∧ fieldOf i = some f := by
  unfold decodeField at h
  split at h
  next j hfind =>
    cases h
    exact ⟨List.mem_of_find?_eq_some hfind, by simpa using List.find?_some hfind⟩
  next => cases h

/-- An extraction has no operand to be ill-formed, and its row no condition on the FRAMER's registers. -/
theorem wellFormed_and_guardHolds_of_mem {i : Instr} (hi : i ∈ extractions) (p : Position)
    (dlen plen : Half) : i.wellFormed = true ∧ i.guardHolds p dlen plen := by
  simp only [extractions, List.mem_cons, List.not_mem_nil, or_false] at hi
  rcases hi with rfl | rfl | rfl | rfl | rfl | rfl | rfl | rfl | rfl | rfl <;> exact ⟨rfl, trivial⟩

/-! ### The tag and the input byte -/

theorem decodeTag_of_ne {t : Byte} (h : t ≠ Config.analogTag) : decodeTag t = .decRaw t := if_neg h

/-- The operation that a payload's tag selects has that tag as its code (R76). -/
theorem encode_decodeTag (t : Byte) :
    encode (decodeTag t) = .tag t ∧ (decodeTag t).wellFormed = true := by
  by_cases h : t = Config.analogTag
  · subst h; exact ⟨rfl, rfl⟩
  · rw [decodeTag_of_ne h]
    exact ⟨rfl, by simpa [Instr.wellFormed] using h⟩

theorem guardHolds_decodeTag (t : Byte) (p : Position) (dlen plen : Half) :
    (decodeTag t).guardHolds p dlen plen := by
  by_cases h : t = Config.analogTag
  · subst h; trivial
  · rw [decodeTag_of_ne h]; trivial

/-- The operation that an input byte selects has that byte as its code, and stands where its row's condition
holds (R75). -/
theorem encode_decodeInput (b : Byte) (p : Position) (dlen plen : Half) :
    encode (decodeInput b p dlen plen) = .input b ∧
      (decodeInput b p dlen plen).wellFormed = true ∧
      (decodeInput b p dlen plen).guardHolds p dlen plen := by
  have hwf (hb : b ≠ Config.startMarker) : (b != Config.startMarker) = true := by simpa using hb
  obtain ⟨rfl, hd⟩ | ⟨hc, hd⟩ | ⟨hc, hd⟩ | ⟨hc, hd⟩ | ⟨hc, hd⟩ | ⟨hc, hd⟩ :=
    decodeInput_cases b p dlen plen <;> rw [hd]
  · exact ⟨rfl, rfl, trivial⟩
  all_goals exact ⟨rfl, hwf hc.1, hc⟩

/-! ### The obligations -/

/-- Settles O4: each FRAMER row is selected under its condition, and the tags and the places differ. -/
theorem decodeEncodeAgree : Obligations.DecodeEncodeAgree := by
  intro i p dlen plen hwf hguard
  cases i
  case frSync => rfl
  case frLenh => exact congrArg _ (decodeInput_lenh _ _ hguard)
  case frLenl => exact congrArg _ (decodeInput_lenl _ _ hguard)
  case frPay => exact congrArg _ (decodeInput_pay hguard)
  case frEmit => exact congrArg _ (decodeInput_emit hguard)
  case frSkip => exact congrArg _ (decodeInput_skip hguard)
  case decAnalog => rfl
  case decRaw t => exact congrArg _ (decodeTag_of_ne (by simpa [Instr.wellFormed] using hwf))
  all_goals rfl

/-- Settles O5: by the kind of code. -/
theorem encodeDecodeAgree : Obligations.EncodeDecodeAgree := by
  intro c i p dlen plen h
  cases c with
  | input b => cases h; exact encode_decodeInput b p dlen plen
  | tag t =>
    cases h
    exact ⟨(encode_decodeTag t).1, (encode_decodeTag t).2, guardHolds_decodeTag t p dlen plen⟩
  | field f =>
    obtain ⟨hi, hf⟩ := decodeField_ok h
    exact ⟨encode_of_fieldOf hf, wellFormed_and_guardHolds_of_mem hi p dlen plen⟩

/-- Settles O6: the byte selects the one operation that decoding answers, by O4 and O5. -/
theorem eachByteSelectsOneOperation : Obligations.EachByteSelectsOneOperation := by
  intro b p dlen plen
  refine ⟨decodeInput b p dlen plen, encode_decodeInput b p dlen plen, fun i ⟨hcode, hwf, hguard⟩ => ?_⟩
  have hdec := decodeEncodeAgree i p dlen plen hwf hguard
  rw [hcode] at hdec
  exact (Except.ok.inj hdec).symm

/-- Settles O7: each word is evaluated. -/
theorem specWordsDecode : Obligations.SpecWordsDecode := by
  refine ⟨?_, ?_, ?_, ?_, ?_, ?_, ?_, ?_, ?_, ?_⟩ <;> decide

end Sys2Proof.Machine
end

section
/-!
The statements on what every step keeps (spec 10_state.md R24, R27, R31; 20_memory.md R45, R46; 40_framer.md R95),
and on the reset state they start from (R33, R170).
-/

namespace Sys2Proof.Machine

/-! ### From the FRAMER's step to the step on the input stream -/

/-- A step that answers a state has waited, or taken one byte. -/
theorem step_next {s t : State} (h : step s = .next t) :
    t = s ∨ ∃ b rest, framerStep b { s with input := rest } = .next t := by
  obtain ⟨-, hwait⟩ | ⟨b, rest, -, hstep⟩ := step_cases s
  · rw [hwait] at h
    cases h
    exact .inl rfl
  · exact .inr ⟨b, rest, hstep ▸ h⟩

/-- What no byte on the stream influences and every FRAMER step keeps, every step keeps. -/
theorem step_keeps {Q : State → Prop} (hinput : ∀ s rest, Q s → Q { s with input := rest })
    (hframer : ∀ b s t, Q s → framerStep b s = .next t → Q t) {s t : State} (hs : Q s)
    (h : step s = .next t) : Q t := by
  obtain rfl | ⟨b, rest, hb⟩ := step_next h
  · exact hs
  · exact hframer b _ t (hinput s rest hs) hb

/-! ### The invariant (R24, R27, R46) -/

/-- The offset at which FR_PAY takes a byte (R27). -/
theorem State.Inv.pos_of_filling {s : State} (hs : s.Inv) (hp : 2 < s.pos.toNat)
    (hlt : s.plen.toNat < s.dlen.toNat) : s.pos.toNat = s.plen.toNat + 3 := by
  obtain ⟨hfill, -, -⟩ := hs
  omega

/-- Up to offset 2 nothing has been taken into PBUF (R27). -/
theorem State.Inv.plen_eq_zero {s : State} (hs : s.Inv) (hp : s.pos.toNat ≤ 2) : s.plen = 0 := by
  obtain ⟨⟨-, h0⟩ | ⟨h3, -⟩, -, -⟩ := hs
  · exact h0
  · omega

theorem State.Inv.of_pos_one {s : State} (hp : s.pos = 1) (hdlen : s.dlen = 0) (hplen : s.plen = 0)
    (hbuf : s.bufferInv) : s.Inv :=
  ⟨.inl ⟨by simp [hp], hplen⟩, ⟨fun _ => hdlen, fun h => by simp [hp] at h⟩, hbuf⟩

theorem State.Inv.of_pos_two {s : State} (hp : s.pos = 2) (hdlen : s.dlen.toNat % 256 = 0)
    (hplen : s.plen = 0) (hbuf : s.bufferInv) : s.Inv :=
  ⟨.inl ⟨by simp [hp], hplen⟩, ⟨fun h => by simp [hp] at h, fun _ => hdlen⟩, hbuf⟩

/-- Past the length bytes only R27 is left to keep. -/
theorem State.Inv.of_pos {s : State} (hp : 3 ≤ s.pos.toNat)
    (hfill : s.plen.toNat = min s.dlen.toNat (s.pos.toNat - 3)) (hbuf : s.bufferInv) : s.Inv := by
  refine ⟨.inr ⟨hp, hfill⟩, ⟨fun h => ?_, fun h => ?_⟩, hbuf⟩
  · omega
  · simp [h] at hp

/-- FR_LENH adds only to the high byte of a DLEN that is 0 (R24). -/
theorem State.Inv.lenh {s : State} (hs : s.Inv) {b : Byte} (hp : s.pos = 1) :
    State.Inv { s with dlen := s.dlen + (zext16 b <<< 8), pos := sat17 (s.pos.toNat + 1) } := by
  have hplen := hs.plen_eq_zero (by simp [hp])
  obtain ⟨-, hlen, hbuf⟩ := hs
  refine .of_pos_two (by rw [hp]; rfl) ?_ hplen hbuf
  show (s.dlen + (zext16 b <<< 8)).toNat % 256 = 0
  rw [hlen.1 (by simp [hp]), zero_add, zext16_shift_toNat, Nat.mul_mod_left]

/-- FR_LENL leaves offset 3, with nothing in PBUF. -/
theorem State.Inv.lenl {s : State} (hs : s.Inv) {b : Byte} (hp : s.pos = 2) :
    State.Inv { s with dlen := s.dlen + zext16 b, pos := sat17 (s.pos.toNat + 1) } := by
  have hplen := hs.plen_eq_zero (by simp [hp])
  obtain ⟨-, -, hbuf⟩ := hs
  exact .of_pos (by simp [hp, Config.posMax]) (by simp [hp, hplen, Config.posMax]) hbuf

/-- FR_PAY's count does not wrap. -/
theorem plen_succ_toNat {s : State} (h : s.plen.toNat < s.dlen.toNat) :
    (s.plen + 1).toNat = s.plen.toNat + 1 := by
  have hd := s.dlen.isLt
  refine BitVec.toNat_add_of_lt ?_
  show s.plen.toNat + 1 < 2 ^ 16
  omega

/-- FR_PAY appends one byte to PBUF and to its count. -/
theorem State.Inv.pay {s : State} (hs : s.Inv) {b : Byte} (hp : 2 < s.pos.toNat)
    (hlt : s.plen.toNat < s.dlen.toNat) :
    State.Inv { s with
      mem := Memory.write s.mem s.plen.toNat b
      plen := s.plen + 1
      pos := sat17 (s.pos.toNat + 1) } := by
  have hpos := hs.pos_of_filling hp hlt
  have hd := s.dlen.isLt
  have hplen := plen_succ_toNat hlt
  obtain ⟨-, -, hbuf⟩ := hs
  refine State.Inv.of_pos ?_ ?_ ?_
  · simp only [sat17_toNat, Config.posMax]
    omega
  · simp only [sat17_toNat, Config.posMax, hplen]
    omega
  · rw [State.bufferInv, hplen]
    exact (Memory.write_range hbuf b).2

/-- Where no byte is to be appended, advancing POS keeps the invariant. -/
theorem State.Inv.advance_of_not_filling {s : State} (hs : s.Inv) (h1 : s.pos.toNat ≠ 1)
    (h2 : s.pos.toNat ≠ 2) (hfull : ¬ (2 < s.pos.toNat ∧ s.plen.toNat < s.dlen.toNat)) :
    s.advance.Inv := by
  obtain ⟨hfill, hlen, hbuf⟩ := hs
  have hpos := s.pos.isLt
  obtain ⟨hle, hplen⟩ | ⟨h3, hplen⟩ := hfill
  · have h0 : s.pos.toNat = 0 := by omega
    have hone : s.advance.pos.toNat = 1 := by simp [h0, Config.posMax]
    exact .of_pos_one (BitVec.eq_of_toNat_eq hone) (hlen.1 (by omega)) hplen hbuf
  · refine State.Inv.of_pos ?_ ?_ hbuf
    · simp only [State.advance_pos, sat17_toNat, Config.posMax]
      omega
    · simp only [State.advance_pos, State.advance_plen, State.advance_dlen, sat17_toNat, Config.posMax]
      omega

theorem framerStep_keeps_inv {b : Byte} {s t : State} (hs : s.Inv) (h : framerStep b s = .next t) :
    t.Inv := by
  obtain ⟨-, rfl⟩ | ⟨hc, rfl⟩ | ⟨hc, rfl⟩ | ⟨hc, rfl⟩ | ⟨hc, ev, -, rfl⟩ | ⟨hc, rfl⟩ :=
    framerStep_cases h
  · exact .of_pos_one rfl rfl rfl rfl
  · exact hs.lenh hc.2
  · exact hs.lenl hc.2
  · exact hs.pay hc.2.1 hc.2.2
  · obtain ⟨-, hdlen, hplen, hpos⟩ := hc
    exact hs.advance_of_not_filling (by omega) (by omega) (by rw [hplen]; omega)
  · obtain ⟨h1, h2, hfull, -⟩ := selectsSkip_toNat hc
    exact hs.advance_of_not_filling h1 h2 hfull

/-- No FRAMER step touches the stream or the draft (R31, R124). -/
theorem framerStep_input_draft {b : Byte} {s t : State} (h : framerStep b s = .next t) :
    t.input = s.input ∧ t.draft = s.draft := by
  obtain ⟨-, rfl⟩ | ⟨-, rfl⟩ | ⟨-, rfl⟩ | ⟨-, rfl⟩ | ⟨-, ev, -, rfl⟩ | ⟨-, rfl⟩ :=
    framerStep_cases h <;> exact ⟨rfl, rfl⟩

/-! ### The obligations -/

/-- Settles O42: row by row of R75. -/
theorem stepKeepsInvariant : Obligations.StepKeepsInvariant := fun _ _ hs h =>
  step_keeps (Q := State.Inv) (fun _ _ hs => hs) (fun _ _ _ => framerStep_keeps_inv) hs h

/-- Settles O43: only FR_PAY writes PBUF, below DLEN and so inside it. -/
theorem stepKeepsMemoryCanonical : Obligations.StepKeepsMemoryCanonical := fun _ _ hs h => by
  refine step_keeps (Q := fun s => Memory.wf s.mem) (fun _ _ hs => hs) (fun b s t hs h => ?_) hs h
  obtain ⟨-, rfl⟩ | ⟨-, rfl⟩ | ⟨-, rfl⟩ | ⟨hc, rfl⟩ | ⟨-, ev, -, rfl⟩ | ⟨-, rfl⟩ := framerStep_cases h
  · exact s.pbufClear_wf
  · exact hs
  · exact hs
  · exact Memory.write_wf hs (plen_lt_bufCap hc.2.2)
  · exact hs
  · exact hs

/-- Settles O49: taking a byte off the stream leaves the draft, and so does the FRAMER's step. -/
theorem stepLeavesDraft : Obligations.StepLeavesDraft := by
  intro s t h
  obtain rfl | ⟨b, rest, hb⟩ := step_next h
  · rfl
  · exact (framerStep_input_draft hb).2

/-- Settles O15: FR_SYNC counts on from 0, every other row from POS. -/
theorem everyStepAdvancesPosition : Obligations.EveryStepAdvancesPosition := by
  intro s t b h
  obtain ⟨rfl, rfl⟩ | ⟨hc, rfl⟩ | ⟨hc, rfl⟩ | ⟨hc, rfl⟩ | ⟨hc, ev, -, rfl⟩ | ⟨hc, rfl⟩ :=
    framerStep_cases h
  · rfl
  all_goals exact (sat17_toNat _).trans (if_neg hc.1).symm

/-- Settles O1: with PLEN = 0 no offset of PBUF is readable (R46). -/
theorem resetLeavesIdleReceiver : Obligations.ResetLeavesIdleReceiver :=
  ⟨rfl, rfl, rfl, fun _ => State.pbufRead_of_ge (Nat.zero_le _), rfl, rfl⟩

/-- Settles O2: each clause is evaluated at reset. -/
theorem resetMeetsInvariant : Obligations.ResetMeetsInvariant :=
  ⟨.of_pos (by decide) (by decide) rfl, State.reset_mem_wf⟩

/-- Settles O3: by what `fetch` answers. -/
theorem stepRunsDecodedOperation : Obligations.StepRunsDecodedOperation := by
  refine ⟨fun s b rest h => ?_, fun s h => ?_⟩
  · simp only [step, State.fetch_cons h]
    rfl
  · simp only [step, State.fetch_nil h]

end Sys2Proof.Machine
end

section
/-!
The statements on emitted events (spec 41_decoder.md R120, R122; 42_sample_extractor.md R138; 60_exceptions.md R150,
R156): what the ten extractions leave in the draft, and so what every event of the DECODER is.
-/

namespace Sys2Proof.Machine

/-! ### What the extractions leave in the draft -/

theorem readSampleArea_ok {s : State} {vs : List SampleSet} (h : readSampleArea s = .ok vs) :
    ∃ en sets, maskAndSets s = .ok (en, sets) ∧ requiredLength en sets ≤ s.payloadLength ∧
      readSets s en sets.toNat 0 = .ok vs := by
  unfold readSampleArea at h
  cases hms : maskAndSets s with
  | error f => rw [hms] at h; cases h
  | ok r =>
    simp only [hms, Except.bind] at h
    split at h
    · cases h
    · exact ⟨r.1, r.2, rfl, by omega, h⟩

/-- The fields that R138 and the type rest on are those of the payload's header and sample area (R122). -/
theorem extractRecord_next {s u : State} (h : extractRecord s = .next u) :
    ∃ chH, s.byteAt 0 = .ok u.draft.frameType ∧ s.byteAt 5 = .ok u.draft.totalSampleSets ∧
      s.byteAt 6 = .ok chH ∧ u.draft.enabledChannels = channelMask chH ∧
      u.draft.analogChannelCount = BitVec.ofNat 3 (popcount (channelMask chH)) ∧
      readSampleArea s = .ok u.draft.sampleSets := by
  simp only [extractRecord, runAll_cons, runAll_nil, andThen_eq_next] at h
  obtain ⟨_, hType, _, hSrc16, _, hRssi, _, hAbcast, _, hPbcast, _, hNsets, _, hChind, _, hChmask, _,
    hSamples, _, hDiag, ⟨⟩⟩ := h
  obtain ⟨_, -, hbyte0, rfl⟩ := fillDraft_next hType
  obtain ⟨_, -, -, rfl⟩ := fillDraft_next hSrc16
  obtain ⟨_, -, -, rfl⟩ := fillDraft_next hRssi
  obtain ⟨_, -, -, rfl⟩ := fillDraft_next hAbcast
  obtain ⟨_, -, -, rfl⟩ := fillDraft_next hPbcast
  obtain ⟨_, -, hbyte5, rfl⟩ := fillDraft_next hNsets
  obtain ⟨_, -, -, rfl⟩ := fillDraft_next hChind
  obtain ⟨chH, -, hbyte6, rfl⟩ := fillDraft_next hChmask
  obtain ⟨_, -, hsets, rfl⟩ := fillDraft_next hSamples
  obtain ⟨_, -, -, rfl⟩ := fillDraft_next hDiag
  exact ⟨chH, hbyte0, hbyte5, hbyte6, rfl, rfl, by simpa only [readSampleArea_draft] using hsets⟩

/-- The record's mask, count and sample sets are all read from the same header (R138). -/
theorem extractRecord_consistent {s u : State} (h : extractRecord s = .next u) : u.draft.consistent := by
  obtain ⟨chH, -, hbyte5, hbyte6, hen, hcount, hsets⟩ := extractRecord_next h
  obtain ⟨en, sets, hms, -, hread⟩ := readSampleArea_ok hsets
  obtain ⟨chH', hbyte6', hbyte5', rfl⟩ := maskAndSets_ok.1 hms
  cases hbyte6.symm.trans hbyte6'
  cases hbyte5.symm.trans hbyte5'
  obtain ⟨hlen, hlane⟩ := readSets_consistent hread
  exact ⟨by rw [hcount, popcount_toNat, hen], hlen, by rwa [hen]⟩

/-! ### What every event of the DECODER is -/

/-- What Decode, run by FR_EMIT, answers, DEC_ANALOG or DEC_RAW answers (R76). -/
theorem decodePayloadNow_next_or {s t : State} (h : decodePayloadNow s = .next t) :
    execDecAnalog s = .next t ∨ ∃ tag, execDecRaw tag s = .next t := by
  unfold decodePayloadNow at h
  split at h
  · cases h
  · split at h
    · exact .inl h
    · exact .inr ⟨_, h⟩

/-- Each of the four kinds of event that Decode emits, with what held where it did (R110, R150). -/
theorem decodePayloadNow_emit {s : State} {ev : Event} (h : decodePayloadNow s = .next (s.emit ev)) :
    (s.payloadLength < Config.hdrLen ∧
      ev = .truncated Config.analogTag s.dlen (BitVec.ofNat 16 Config.hdrLen)) ∨
    (∃ en sets, s.payloadLength < requiredLength en sets ∧
      ev = .truncated Config.analogTag s.dlen (BitVec.ofNat 16 (requiredLength en sets))) ∨
    (∃ u, s.byteAt 0 = .ok Config.analogTag ∧ extractRecord s = .next u ∧ ev = .analog u.draft) ∨
    ∃ tag bytes, s.byteAt 0 = .ok tag ∧ tag ≠ Config.analogTag ∧
      s.bytesFrom s.payloadLength 0 = .ok bytes ∧ ev = .raw bytes s.dlen := by
  obtain hanalog | ⟨tag, hraw⟩ := decodePayloadNow_next_or h
  · obtain ⟨htag, ⟨hlen, hev⟩ | ⟨en, sets, -, -, ⟨hreq, hev⟩ | ⟨-, u, hu, hev⟩⟩⟩ :=
      execDecAnalog_next hanalog
    all_goals have hev := s.emit_injective hev
    · exact .inl ⟨hlen, hev⟩
    · exact .inr (.inl ⟨en, sets, hreq, hev⟩)
    · exact .inr (.inr (.inl ⟨u, htag, hu, hev⟩))
  · obtain ⟨hbyte, htag, bytes, hbytes, hev⟩ := execDecRaw_next hraw
    exact .inr (.inr (.inr ⟨tag, bytes, hbyte, htag, hbytes, s.emit_injective hev⟩))

/-- Every sample set emitted has a reading exactly for each enabled channel (R138). -/
theorem decodePayloadNow_consistent {s : State} {ev : Event}
    (h : decodePayloadNow s = .next (s.emit ev)) : ev.consistent := by
  obtain ⟨-, rfl⟩ | ⟨_, _, -, rfl⟩ | ⟨u, -, hu, rfl⟩ | ⟨_, _, -, -, -, rfl⟩ := decodePayloadNow_emit h
  · trivial
  · trivial
  · exact extractRecord_consistent hu
  · trivial

/-- A payload that reads back whole is one byte at least, as byte 0 was read first (R111). -/
theorem raw_legal {s : State} {tag : Byte} {bytes : List Byte} (htag : tag ≠ Config.analogTag)
    (hbyte : s.byteAt 0 = .ok tag) (hbytes : s.bytesFrom s.payloadLength 0 = .ok bytes) :
    (Event.raw bytes s.dlen).legal := by
  obtain ⟨hlen, hread⟩ := State.bytesFrom_ok.1 hbytes
  have hpos : 0 < s.payloadLength := (State.byteAt_ok.1 hbyte).1
  refine ⟨hlen, hpos, ?_⟩
  cases bytes with
  | nil => simp
  | cons b bytes =>
    have hb : s.byteAt 0 = .ok b := hread 0 (Nat.succ_pos _)
    cases hbyte.symm.trans hb
    simpa using htag

theorem decodePayloadNow_legal {s : State} {ev : Event}
    (h : decodePayloadNow s = .next (s.emit ev)) : ev.legal := by
  obtain ⟨hlen, rfl⟩ | ⟨en, sets, hlen, rfl⟩ | ⟨u, htag, hu, rfl⟩ | ⟨tag, bytes, hbyte, htag, hbytes, rfl⟩ :=
    decodePayloadNow_emit h
  · exact ⟨rfl, hlen, by decide, by decide⟩
  · obtain ⟨hlo, hhi⟩ := requiredLength_range en sets
    refine ⟨rfl, ?_⟩
    rw [requiredLength_toNat]
    exact ⟨hlen, hlo, hhi⟩
  · obtain ⟨_, hbyte, -⟩ := extractRecord_next hu
    exact (Except.ok.inj (htag.symm.trans hbyte)).symm
  · exact raw_legal htag hbyte hbytes

/-! ### From the DECODER to the step -/

/-- A FRAMER step leaves the events, or appends the one that Decode emits (R92). -/
theorem framerStep_events {b : Byte} {s t : State} (h : framerStep b s = .next t) :
    t.events = s.events ∨
      ∃ ev, decodePayloadNow s = .next (s.emit ev) ∧ t.events = s.events ++ [ev] := by
  obtain ⟨-, rfl⟩ | ⟨-, rfl⟩ | ⟨-, rfl⟩ | ⟨-, rfl⟩ | ⟨-, ev, hev, rfl⟩ | ⟨-, rfl⟩ := framerStep_cases h
  · exact .inl rfl
  · exact .inl rfl
  · exact .inl rfl
  · exact .inl rfl
  · exact .inr ⟨ev, hev, rfl⟩
  · exact .inl rfl

/-- What holds of each event that Decode emits, every step keeps true of all events. -/
theorem step_keeps_events {Q : Event → Prop}
    (hdec : ∀ s ev, decodePayloadNow s = .next (s.emit ev) → Q ev) {s t : State}
    (hs : ∀ e ∈ s.events, Q e) (h : step s = .next t) : ∀ e ∈ t.events, Q e := by
  refine step_keeps (Q := fun s => ∀ e ∈ s.events, Q e) (fun _ _ hs => hs) (fun b s t hs h => ?_) hs h
  obtain heq | ⟨ev, hev, heq⟩ := framerStep_events h
  · rwa [heq]
  · rw [heq]
    exact List.forall_mem_append.2 ⟨hs, List.forall_mem_singleton.2 (hdec s ev hev)⟩

/-! ### The obligations -/

/-- Settles O47: the one event a step appends is Decode's, and Decode's are consistent. -/
theorem emittedRecordsStayConsistent : Obligations.EmittedRecordsStayConsistent :=
  fun _ _ => step_keeps_events fun _ _ => decodePayloadNow_consistent

/-- Settles O48: the one event a step appends is Decode's, and Decode's are legal. -/
theorem emittedEventsStayLegal : Obligations.EmittedEventsStayLegal :=
  fun _ _ => step_keeps_events fun _ _ => decodePayloadNow_legal

end Sys2Proof.Machine
end

section
/-!
The statements on single operations (spec 30_encoding.md R75; 40_framer.md R88 to R95; 41_decoder.md R110 to R124;
20_memory.md R46): where an operation stops, for which reason, and what it leaves unchanged where it goes on.
-/

namespace Sys2Proof.Machine

/-! ### The FRAMER's operations outside their rows (log 5) -/

theorem exec_framer_of_unselected {s : State} {b : Byte} {i : Instr}
    (hi : i ∈ [Instr.frLenh b, .frLenl b, .frPay b, .frEmit b, .frSkip b])
    (h : ¬ i.guardHolds s.pos s.dlen s.plen) : exec i s = .fault .notSelected := by
  simp only [List.mem_cons, List.not_mem_nil, or_false] at hi
  obtain rfl | rfl | rfl | rfl | rfl := hi <;> exact if_neg h

/-- A FRAMER operation answers a state only where its row's condition holds. -/
theorem guardHolds_of_exec_next {s t : State} {b : Byte} {i : Instr}
    (hi : i ∈ [Instr.frLenh b, .frLenl b, .frPay b, .frEmit b, .frSkip b]) (h : exec i s = .next t) :
    i.guardHolds s.pos s.dlen s.plen := by
  by_contra hguard
  rw [exec_framer_of_unselected hi hguard] at h
  cases h

theorem exec_frSkip {s : State} {b : Byte} (h : selectsSkip b s.pos s.dlen s.plen) :
    exec (.frSkip b) s = .next { s with pos := sat17 (s.pos.toNat + 1) } :=
  if_pos h

/-- FR_EMIT answers a state only with one event appended and POS advanced (R92). -/
theorem exec_frEmit_next {s t : State} {b : Byte} (h : exec (.frEmit b) s = .next t) :
    ∃ ev, t = (s.emit ev).advance := by
  rw [exec_frEmit (guardHolds_of_exec_next (b := b) (by simp) h)] at h
  obtain ⟨u, hu, ⟨⟩⟩ := andThen_eq_next.1 h
  obtain ⟨ev, rfl⟩ := decodePayloadNow_next hu
  exact ⟨ev, rfl⟩

/-! ### The extractions -/

/-- Every extraction is one read, put into the draft under the common guard (R113 to R121, R130, R136). -/
theorem exec_extraction {i : Instr} (hi : i ∈ extractions) :
    ∃ (α : Type) (read : State → Except Fault α) (put : α → AnalogRecord → AnalogRecord),
      ∀ s, exec i s = fillDraft s (read s) put := by
  simp only [extractions, List.mem_cons, List.not_mem_nil, or_false] at hi
  obtain rfl | rfl | rfl | rfl | rfl | rfl | rfl | rfl | rfl | rfl := hi <;>
    exact ⟨_, _, _, fun _ => by rw [exec]; rfl⟩

/-- Outside an analog report with a whole header an extraction stops as its guard does. -/
theorem exec_extraction_of_outside {s : State} {f : Fault} {i : Instr} (hi : i ∈ extractions)
    (h : insideAnalog s = .error f) : exec i s = .fault f := by
  obtain ⟨_, read, put, hexec⟩ := exec_extraction hi
  rw [hexec, fillDraft_of_outside _ _ h]

theorem insideAnalog_of_tag {s : State} {t : Byte} (ht : s.byteAt 0 = .ok t)
    (h : t ≠ Config.analogTag ∨ s.payloadLength < Config.hdrLen) :
    insideAnalog s = .error .notSelected := by
  have hguard : ¬ (t = Config.analogTag ∧ Config.hdrLen ≤ s.payloadLength) := fun ⟨htag, hlen⟩ =>
    h.elim (absurd htag) (by omega)
  simp [insideAnalog, ht, hguard]

theorem readSampleArea_of_short {s : State} {en : BitVec 6} {sets : Byte}
    (hms : maskAndSets s = .ok (en, sets)) (hreq : s.payloadLength < requiredLength en sets) :
    readSampleArea s = .error .notSelected := by
  simp [readSampleArea, hms, Except.bind, hreq]

theorem readSampleArea_of_long {s : State} {en : BitVec 6} {sets : Byte}
    (hms : maskAndSets s = .ok (en, sets)) (hreq : requiredLength en sets ≤ s.payloadLength) :
    readSampleArea s = readSets s en sets.toNat 0 := by
  simp [readSampleArea, hms, Except.bind, Nat.not_lt.2 hreq]

/-- With both bytes there, `maskAndSets` answers the mask and S (R118, R130). -/
theorem maskAndSets_of_some {s : State} {sets chH : Byte} (hd : 8 ≤ s.dlen.toNat)
    (h5 : s.pbufRead 5 = some sets) (h6 : s.pbufRead 6 = some chH) :
    maskAndSets s = .ok (channelMask chH, sets) :=
  maskAndSets_ok.2
    ⟨chH, State.byteAt_of_some (by omega) h6, State.byteAt_of_some (by omega) h5, rfl⟩

/-- Either indicator byte that PBUF does not hold stops EX_CHIND's read. -/
theorem indicators_of_none {s : State} {a : Nat} (ha : a = 6 ∨ a = 7) (h : s.pbufRead a = none) :
    indicators s = .error .pbufNoValue := by
  have hbyte := State.byteAt_of_none h
  cases hr : indicators s with
  | error f => rw [indicators_error hr]
  | ok v =>
    unfold indicators at hr
    obtain rfl | rfl := ha
    · simp [hbyte, Except.bind] at hr
    · cases h6 : s.byteAt 6 <;> simp [h6, hbyte, Except.bind, Except.map] at hr

/-- A byte of its place that PBUF does not hold stops an extraction (R46). -/
theorem exec_extraction_of_none {s : State} {i : Instr} {f : Field} {last a : Nat}
    (hin : insideAnalog s = .ok ()) (hf : fieldOf i = some f)
    (hlast : f.last = some last) (hfirst : f.first ≤ a) (ha : a ≤ last) (h : s.pbufRead a = none) :
    exec i s = .fault .pbufNoValue := by
  have hbyte : ∀ j, f.first = j → last = j → s.byteAt j = .error .pbufNoValue := fun j h1 h2 =>
    State.byteAt_of_none (by rwa [show j = a by omega])
  cases i <;> cases hf <;> cases hlast <;> rw [exec]
  case exSrc16 => exact fillDraft_of_error _ hin (State.halfAt_of_none (by simp at hfirst ha; omega) h)
  case exChind => exact fillDraft_of_error _ hin (indicators_of_none (by simp at hfirst ha; omega) h)
  case exDiag =>
    exact fillDraft_of_error _ hin (State.bytesFrom_of_none hfirst (by simp [Config.hdrLen]; omega) h)
  all_goals exact fillDraft_of_error _ hin (hbyte _ rfl rfl)

/-! ### Where the extractions of one report stop (R46, R139) -/

/-- Over any draft, the operation goes on with another draft alone, or stops on a missing byte. -/
def FillsOrStops (s : State) (f : State → Result) : Prop :=
  ∀ d, (∃ d', f { s with draft := d } = .next { s with draft := d' }) ∨
    f { s with draft := d } = .fault .pbufNoValue

theorem fillDraft_fillsOrStops {α : Type} {s : State} {read : State → Except Fault α}
    (put : α → AnalogRecord → AnalogRecord) (hin : insideAnalog s = .ok ())
    (hdraft : ∀ d, read { s with draft := d } = read s)
    (hread : ∀ f, read s = .error f → f = .pbufNoValue) :
    FillsOrStops s fun s => fillDraft s (read s) put := by
  intro d
  have hin : insideAnalog { s with draft := d } = .ok () := hin
  cases hr : read s with
  | ok v => exact .inl ⟨put v d, fillDraft_of_ok put hin ((hdraft d).trans hr)⟩
  | error f =>
    cases hread f hr
    exact .inr (fillDraft_of_error put hin ((hdraft d).trans hr))

/-- Where the payload reaches its required length, a missing byte is all that stops an extraction. -/
theorem extraction_fillsOrStops {s : State} {en : BitVec 6} {sets : Byte}
    (hin : insideAnalog s = .ok ()) (hms : maskAndSets s = .ok (en, sets))
    (hreq : requiredLength en sets ≤ s.payloadLength) {f : State → Result}
    (hf : f ∈ [execExType, execExSrc16, execExRssi, execExAbcast, execExPbcast, execExNsets,
      execExChind, execExChmask, execExSamples, execExDiag]) : FillsOrStops s f := by
  have hbyte (j : Nat) {put : Byte → AnalogRecord → AnalogRecord} :
      FillsOrStops s fun s => fillDraft s (s.byteAt j) put :=
    fillDraft_fillsOrStops put hin (fun _ => rfl) fun _ => State.byteAt_error
  simp only [List.mem_cons, List.not_mem_nil, or_false] at hf
  obtain rfl | rfl | rfl | rfl | rfl | rfl | rfl | rfl | rfl | rfl := hf
  · exact hbyte 0
  · exact fillDraft_fillsOrStops _ hin (fun _ => rfl) fun _ => State.halfAt_error
  · exact hbyte 3
  · exact hbyte 4
  · exact hbyte 4
  · exact hbyte 5
  · exact fillDraft_fillsOrStops _ hin (fun _ => rfl) fun _ => indicators_error
  · exact hbyte 6
  · refine fillDraft_fillsOrStops _ hin (readSampleArea_draft s) fun f hr => ?_
    rw [readSampleArea_of_long hms hreq] at hr
    exact readSets_error hr
  · exact fillDraft_fillsOrStops _ hin (fun d => s.bytesFrom_draft d _ _) fun _ => State.bytesFrom_error

theorem runAll_fillsOrStops {s : State} {fs : List (State → Result)}
    (hf : ∀ f ∈ fs, FillsOrStops s f) : FillsOrStops s (runAll fs) := by
  induction fs with
  | nil => exact fun d => .inl ⟨d, rfl⟩
  | cons f fs ih =>
    obtain ⟨hhead, hrest⟩ := List.forall_mem_cons.1 hf
    intro d
    obtain ⟨d', hd⟩ | hd := hhead d
    · rw [runAll_cons, hd]
      exact ih hrest d'
    · rw [runAll_cons, hd]
      exact .inr rfl

/-! ### The DECODER goes on, or stops on a missing byte (R139) -/

/-- DEC_ANALOG on a report that reaches its required length is the record, or the stop, of its extractions. -/
theorem execDecAnalog_of_long {s : State} {en : BitVec 6} {sets : Byte}
    (ht : s.byteAt 0 = .ok Config.analogTag) (hlen : Config.hdrLen ≤ s.payloadLength)
    (hms : maskAndSets s = .ok (en, sets)) (hreq : requiredLength en sets ≤ s.payloadLength) :
    execDecAnalog s = emitRecord s := by
  simp [execDecAnalog, ht, hms, not_lt.2 hlen, not_lt.2 hreq]

theorem execExSamples_of_none {s : State} {en : BitVec 6} {sets : Byte} {a : Nat}
    (hin : insideAnalog s = .ok ()) (hms : maskAndSets s = .ok (en, sets))
    (hreq : requiredLength en sets ≤ s.payloadLength) (h8 : Config.hdrLen ≤ a)
    (ha : a < requiredLength en sets) (h : s.pbufRead a = none) (d : AnalogRecord) :
    execExSamples { s with draft := d } = .fault .pbufNoValue :=
  fillDraft_of_error (s := { s with draft := d }) _ hin <| by
    rw [readSampleArea_draft, readSampleArea_of_long hms hreq, readSets_of_none h8 ha h]

theorem execExDiag_of_none {s : State} {a : Nat} (hin : insideAnalog s = .ok ())
    (ha : a < Config.hdrLen) (h : s.pbufRead a = none) (d : AnalogRecord) :
    execExDiag { s with draft := d } = .fault .pbufNoValue :=
  fillDraft_of_error (s := { s with draft := d }) _ hin
    (State.bytesFrom_of_none (Nat.zero_le a) (by rwa [Nat.zero_add]) h)

theorem emitRecord_of_fault {s : State} {f : Fault} (h : extractRecord s = .fault f) :
    emitRecord s = .fault f := by
  simp [emitRecord, h]

/-- EX_DIAG reads the whole header and EX_SAMPLES the whole sample area, so one of them stops on any byte below
the required length that PBUF does not hold. -/
theorem execDecAnalog_of_none {s : State} {en : BitVec 6} {sets : Byte} {a : Nat}
    (ht : s.byteAt 0 = .ok Config.analogTag) (hlen : Config.hdrLen ≤ s.payloadLength)
    (hms : maskAndSets s = .ok (en, sets)) (hreq : requiredLength en sets ≤ s.payloadLength)
    (ha : a < requiredLength en sets) (h : s.pbufRead a = none) :
    execDecAnalog s = .fault .pbufNoValue := by
  have hin : insideAnalog s = .ok () := insideAnalog_ok.2 ⟨ht, hlen⟩
  have hstops {g : State → Result} := runAll_of_stopping (g := g)
    (fun _ => extraction_fillsOrStops hin hms hreq)
  refine (execDecAnalog_of_long ht hlen hms hreq).trans (emitRecord_of_fault ?_)
  obtain h8 | h8 := lt_or_ge a Config.hdrLen
  · exact hstops (by simp) (execExDiag_of_none hin h8 h) s.draft
  · exact hstops (by simp) (execExSamples_of_none hin hms hreq h8 ha h) s.draft

theorem maskAndSets_error {s : State} {f : Fault} (h : maskAndSets s = .error f) : f = .pbufNoValue := by
  unfold maskAndSets at h
  simp only [Except.bind, Except.map] at h
  repeat' split at h
  all_goals cases h
  all_goals exact State.byteAt_error ‹_›

theorem execDecAnalog_of_noMask {s : State} {f : Fault} (ht : s.byteAt 0 = .ok Config.analogTag)
    (hlen : Config.hdrLen ≤ s.payloadLength) (hms : maskAndSets s = .error f) :
    execDecAnalog s = .fault f := by
  simp [execDecAnalog, ht, hms, not_lt.2 hlen]

theorem execDecAnalog_goesOn_or {s : State} (ht : s.byteAt 0 = .ok Config.analogTag) :
    goesOn (execDecAnalog s) ∨ execDecAnalog s = .fault .pbufNoValue := by
  by_cases hlen : s.payloadLength < Config.hdrLen
  · exact .inl ⟨_, execDecAnalog_of_shortHeader ht hlen⟩
  rw [not_lt] at hlen
  cases hms : maskAndSets s with
  | error f => exact .inr (maskAndSets_error hms ▸ execDecAnalog_of_noMask ht hlen hms)
  | ok r =>
    obtain ⟨en, sets⟩ := r
    by_cases hreq : s.payloadLength < requiredLength en sets
    · exact .inl ⟨_, execDecAnalog_of_shortArea ht hlen hms hreq⟩
    rw [not_lt] at hreq
    obtain ⟨d, hd⟩ | hd := runAll_fillsOrStops
      (fun _ => extraction_fillsOrStops (insideAnalog_ok.2 ⟨ht, hlen⟩) hms hreq) s.draft
    · exact .inl ⟨_, execDecAnalog_of_extracted ht hlen hms hreq hd⟩
    · exact .inr ((execDecAnalog_of_long ht hlen hms hreq).trans (emitRecord_of_fault hd))

theorem execDecRaw_of_noBytes {s : State} {tag : Byte} {f : Fault} (ht : s.byteAt 0 = .ok tag)
    (htag : tag ≠ Config.analogTag) (hbytes : s.bytesFrom s.payloadLength 0 = .error f) :
    execDecRaw tag s = .fault f := by
  simp [execDecRaw, ht, htag, hbytes]

theorem execDecRaw_goesOn_or {s : State} {tag : Byte} (ht : s.byteAt 0 = .ok tag)
    (htag : tag ≠ Config.analogTag) :
    goesOn (execDecRaw tag s) ∨ execDecRaw tag s = .fault .pbufNoValue := by
  cases hbytes : s.bytesFrom s.payloadLength 0 with
  | error f => exact .inr (State.bytesFrom_error hbytes ▸ execDecRaw_of_noBytes ht htag hbytes)
  | ok bytes => exact .inl ⟨_, execDecRaw_of_bytes ht htag hbytes⟩

/-- The operation that payload byte 0 selects is the one FR_EMIT runs (R76, R92). -/
theorem exec_decodeTag {s : State} {t : Byte} (ht : s.byteAt 0 = .ok t) :
    exec (decodeTag t) s = decodePayloadNow s := by
  simp only [decodePayloadNow, ht, decodeTag]
  split <;> rfl

theorem decodePayloadNow_goesOn_or (s : State) :
    goesOn (decodePayloadNow s) ∨ decodePayloadNow s = .fault .pbufNoValue := by
  cases ht : s.byteAt 0 with
  | error f => exact .inr (by simp [decodePayloadNow, ht, State.byteAt_error ht])
  | ok t =>
    rw [← exec_decodeTag ht]
    by_cases htag : t = Config.analogTag
    · subst htag
      exact execDecAnalog_goesOn_or ht
    · rw [decodeTag_of_ne htag]
      exact execDecRaw_goesOn_or ht htag

theorem framerStep_goesOn_or (b : Byte) (s : State) :
    goesOn (framerStep b s) ∨ framerStep b s = .fault .pbufNoValue := by
  obtain ⟨rfl, -⟩ | ⟨hc, -⟩ | ⟨hc, -⟩ | ⟨hc, -⟩ | ⟨hc, hd⟩ | ⟨hc, -⟩ :=
    decodeInput_cases b s.pos s.dlen s.plen
  · exact .inl ⟨_, framerStep_startMarker s⟩
  · exact .inl ⟨_, framerStep_lenh hc⟩
  · exact .inl ⟨_, framerStep_lenl hc⟩
  · exact .inl ⟨_, framerStep_pay hc⟩
  · rw [framerStep, State.select, hd, exec_frEmit hc]
    obtain ⟨t, ht⟩ | ht := decodePayloadNow_goesOn_or s
    · exact .inl ⟨_, by rw [ht, andThen_next]⟩
    · exact .inr (by rw [ht, andThen_fault])
  · exact .inl ⟨_, framerStep_skip hc⟩

/-! ### The obligations -/

/-- Settles O13: the row's condition is the operation's. -/
theorem frSkipOnlyAdvances : Obligations.FrSkipOnlyAdvances := fun _ _ => exec_frSkip

/-- Settles O14: the row's condition is the operation's. -/
theorem framerOperationsStopUnselected : Obligations.FramerOperationsStopUnselected :=
  fun _ _ _ => exec_framer_of_unselected

/-- Settles O16: none of the three writes PLEN or PBUF. -/
theorem lengthAndSkipFrame : Obligations.LengthAndSkipFrame := by
  intro s t b i hi h
  have hguard := guardHolds_of_exec_next (b := b) (by simp at hi ⊢; tauto) h
  simp only [List.mem_cons, List.not_mem_nil, or_false] at hi
  obtain rfl | rfl | rfl := hi
  · cases (exec_frLenh hguard).symm.trans h
    exact ⟨rfl, fun _ => rfl, rfl, rfl, rfl, nofun⟩
  · cases (exec_frLenl hguard).symm.trans h
    exact ⟨rfl, fun _ => rfl, rfl, rfl, rfl, nofun⟩
  · cases (exec_frSkip hguard).symm.trans h
    exact ⟨rfl, fun _ => rfl, rfl, rfl, rfl, fun _ => rfl⟩

/-- Settles O17: below PLEN the store changes nothing, and above PLEN nothing is readable before or after. -/
theorem frPayFrame : Obligations.FrPayFrame := by
  intro s t b h
  have hguard : selectsPay b s.pos s.dlen s.plen := guardHolds_of_exec_next (b := b) (by simp) h
  cases (exec_frPay hguard).symm.trans h
  refine ⟨rfl, rfl, rfl, rfl, fun a ha => ?_⟩
  have hplen := plen_succ_toNat hguard.2.2
  obtain hlt | hge := lt_or_ge a s.plen.toNat
  · rw [State.pbufRead_of_lt (by rw [hplen]; omega), State.pbufRead_of_lt hlt]
    exact Memory.read_write_other _ _ _ _ ha
  · rw [State.pbufRead_of_ge (by rw [hplen]; omega), State.pbufRead_of_ge hge]

/-- Settles O18: each of the three ends in one `emit`. -/
theorem emissionFrame : Obligations.EmissionFrame := by
  intro s t b i hi h
  simp only [List.mem_cons, List.not_mem_nil, or_false] at hi
  obtain rfl | rfl | rfl := hi
  · obtain ⟨ev, rfl⟩ := exec_frEmit_next h
    exact ⟨ev, rfl, fun hne => absurd rfl hne⟩
  · obtain ⟨-, ⟨-, rfl⟩ | ⟨_, _, -, -, ⟨-, rfl⟩ | ⟨-, _, -, rfl⟩⟩⟩ := execDecAnalog_next h <;>
      exact ⟨_, rfl, fun _ => rfl⟩
  · obtain ⟨-, -, _, -, rfl⟩ := execDecRaw_next h
    exact ⟨_, rfl, fun _ => rfl⟩

/-- Settles O19: an extraction that answers a state has filled the draft. -/
theorem extractionFrame : Obligations.ExtractionFrame := by
  intro s t i hi h
  obtain ⟨_, read, put, hexec⟩ := exec_extraction hi
  rw [hexec] at h
  obtain ⟨_, -, -, rfl⟩ := fillDraft_next h
  rfl

/-- Settles O38: each operation tests its row's condition on the bytes it reads first. -/
theorem decoderOperationsStopUnselected : Obligations.DecoderOperationsStopUnselected := by
  refine ⟨fun s t i hi h0 hd h => ?_, fun s sets chH h0 h5 h6 hd hlen => ?_, fun s t h0 hd h => ?_,
    fun s t tag h0 hd h => ?_⟩
  · exact exec_extraction_of_outside hi (insideAnalog_of_tag (State.byteAt_of_some hd h0) h)
  · have hin : insideAnalog s = .ok () :=
      insideAnalog_ok.2 ⟨State.byteAt_of_some (by omega) h0, hd⟩
    rw [exec]
    exact fillDraft_of_error _ hin (readSampleArea_of_short (maskAndSets_of_some hd h5 h6) hlen)
  · have htag : t ≠ Config.analogTag := h
    simp only [exec, execDecAnalog, State.byteAt_of_some hd h0, if_pos htag]
  · have hguard : ¬ (t = tag ∧ tag ≠ Config.analogTag) := fun ⟨ht, htag⟩ => h.elim (absurd ht) htag
    simp only [exec, execDecRaw, State.byteAt_of_some hd h0, if_neg hguard]

/-- Settles O39: each operation reads the bytes named, and every such read stops on a missing byte. -/
theorem unreadablePayloadFaults : Obligations.UnreadablePayloadFaults := by
  intro s
  refine ⟨fun tag i hi h0 => ?_, fun tag a h0 htag ha h => ?_, fun h0 hd => ?_⟩
  · have hbyte := State.byteAt_of_none h0
    simp only [List.mem_cons] at hi
    obtain rfl | rfl | hi := hi
    · simp [exec, execDecAnalog, hbyte]
    · simp [exec, execDecRaw, hbyte]
    · exact exec_extraction_of_outside hi (by simp [insideAnalog, hbyte])
  · exact execDecRaw_of_noBytes (State.byteAt_of_some (by omega) h0) htag
      (State.bytesFrom_of_none (Nat.zero_le a) (by rw [Nat.zero_add]; exact ha) h)
  have ht : s.byteAt 0 = .ok Config.analogTag := State.byteAt_of_some (by omega) h0
  have hin : insideAnalog s = .ok () := insideAnalog_ok.2 ⟨ht, hd⟩
  refine ⟨fun i f last a _ => exec_extraction_of_none hin, fun h => ?_, fun sets chH a h5 h6 hlen ha h => ?_⟩
  · have hms := maskAndSets_of_none h
    have harea : readSampleArea s = .error .pbufNoValue := by rw [readSampleArea, hms]; rfl
    exact ⟨by rw [exec]; exact fillDraft_of_error _ hin harea, execDecAnalog_of_noMask ht hd hms⟩
  · have hms := maskAndSets_of_some hd h5 h6
    exact ⟨execDecAnalog_of_none ht hd hms hlen ha h,
      fun h8 => execExSamples_of_none hin hms hlen h8 ha h s.draft⟩

/-- Settles O45: only the DECODER's reads can stop a step. -/
theorem stepStopsOnlyOnMissingByte : Obligations.StepStopsOnlyOnMissingByte := by
  intro s
  obtain ⟨-, hwait⟩ | ⟨b, rest, -, hstep⟩ := step_cases s
  · exact .inl ⟨s, hwait⟩
  · rw [hstep]
    exact framerStep_goesOn_or b _

end Sys2Proof.Machine
end

section
/-!
The statements on the pseudocode (spec 40_framer.md R85, R87, decision D19; R65, R139) and on the phases (R102). Row
by row of R75 the transcribed `FramerStep` leaves the state that the selected operation leaves.
-/

namespace Sys2Proof.Machine

/-! ### The pseudocode on each row of R75 -/

section
variable {s : State} {b : Byte}

theorem Reference.framerStep_lenh (h : selectsLenh b s.pos) :
    Reference.framerStep b s =
      { s with dlen := s.dlen + (zext16 b <<< 8), pos := sat17 (s.pos.toNat + 1) } := by
  have hb : b ≠ 0x7E := h.1
  simp only [Reference.framerStep, if_neg hb, h.2]
  simp [zext16]

theorem Reference.framerStep_lenl (h : selectsLenl b s.pos) :
    Reference.framerStep b s =
      { s with dlen := s.dlen + zext16 b, pos := sat17 (s.pos.toNat + 1) } := by
  have hb : b ≠ 0x7E := h.1
  simp only [Reference.framerStep, if_neg hb, h.2]
  simp [zext16]

/-- The test for emission comes after the append; R27's position keeps the two apart. -/
theorem Reference.framerStep_pay (h : selectsPay b s.pos s.dlen s.plen)
    (hpos : s.pos.toNat = s.plen.toNat + 3) :
    Reference.framerStep b s =
      { s with
        mem := Memory.write s.mem s.plen.toNat b
        plen := s.plen + 1
        pos := sat17 (s.pos.toNat + 1) } := by
  obtain ⟨hne, hp, hlt⟩ := h
  have hb : b ≠ 0x7E := hne
  have h1 : s.pos.toNat ≠ 1 := by omega
  have h2 : s.pos.toNat ≠ 2 := by omega
  have hne : s.pos.toNat ≠ s.dlen.toNat + 3 := by omega
  simp only [Reference.framerStep, if_neg hb, if_neg h1, if_neg h2]
  simp [hp, hlt, hne]

theorem Reference.framerStep_emit (h : selectsEmit b s.pos s.dlen s.plen) :
    Reference.framerStep b s =
      (s.emit (Reference.decodeEvent (Reference.contents s.mem s.dlen.toNat))).advance := by
  obtain ⟨hne, hdlen, hplen, hpos⟩ := h
  have hb : b ≠ 0x7E := hne
  have h1 : s.pos.toNat ≠ 1 := by omega
  have h2 : s.pos.toNat ≠ 2 := by omega
  simp only [Reference.framerStep, if_neg hb, if_neg h1, if_neg h2]
  simp [hplen, hdlen, hpos, State.advance, State.emit]

theorem Reference.framerStep_skip (h : selectsSkip b s.pos s.dlen s.plen) :
    Reference.framerStep b s = { s with pos := sat17 (s.pos.toNat + 1) } := by
  have hb : b ≠ 0x7E := h.1
  obtain ⟨h1, h2, hpay, hemit⟩ := selectsSkip_toNat h
  have hemit : ¬ (0 < s.dlen.toNat ∧ s.plen = s.dlen ∧ s.pos.toNat = s.dlen.toNat + 3) :=
    fun ⟨hdlen, hplen, hpos⟩ => hemit ⟨hdlen, congrArg _ hplen, hpos⟩
  simp only [Reference.framerStep, if_neg hb, if_neg h1, if_neg h2, gt_iff_lt, ← Bool.decide_and,
    decide_eq_true_eq, if_neg hpay, and_assoc, if_neg hemit]

end

/-! ### What PBUF holds where the invariant holds (R46, R47) -/

theorem State.Inv.read_isSome {s : State} (hs : s.Inv) {i : Nat} (hi : i < s.plen.toNat) :
    (Memory.read s.mem i).isSome = true := by
  obtain ⟨-, -, hbuf⟩ := hs
  rw [Memory.read_isSome, hbuf]
  exact List.mem_range.2 hi

/-- A complete payload is held whole. -/
theorem State.Inv.holds_contents {s : State} (hs : s.Inv) (hplen : s.plen = s.dlen) :
    s.Holds (Reference.contents s.mem s.dlen.toNat) := by
  refine ⟨by simp [State.payloadLength, Reference.contents], fun i hi => ?_⟩
  have hi : i < s.dlen.toNat := by simpa [Reference.contents] using hi
  obtain ⟨v, hv⟩ := Option.isSome_iff_exists.1 (hs.read_isSome (hplen ▸ hi))
  rw [State.pbufRead_of_lt (hplen ▸ hi), hv]
  simp [Reference.contents, hi, hv]

/-- Where the invariant holds, each row leaves the pseudocode's state (R87). -/
theorem State.Inv.framerStep_eq {s : State} (hs : s.Inv) (b : Byte) :
    framerStep b s = .next (Reference.framerStep b s) := by
  obtain ⟨rfl, -⟩ | ⟨hc, -⟩ | ⟨hc, -⟩ | ⟨hc, -⟩ | ⟨hc, -⟩ | ⟨hc, -⟩ :=
    decodeInput_cases b s.pos s.dlen s.plen
  · rfl
  · rw [framerStep_lenh hc, Reference.framerStep_lenh hc]
  · rw [framerStep_lenl hc, Reference.framerStep_lenl hc]
  · rw [framerStep_pay hc, Reference.framerStep_pay hc (hs.pos_of_filling hc.2.1 hc.2.2)]
  · have hP := hs.holds_contents hc.2.2.1
    rw [framerStep_emit hc (hP.decodePayloadNow_eq (hP.1 ▸ hc.2.1)), Reference.framerStep_emit hc]
  · rw [framerStep_skip hc, Reference.framerStep_skip hc]

/-! ### The phases, as conditions on the registers (R102) -/

section
variable {s : State}

theorem State.phase_eq : s.phase =
    if s.pos.toNat = 1 then .lenH
    else if s.pos.toNat = 2 then .lenL
    else if 0 < s.dlen.toNat ∧ 3 ≤ s.pos.toNat ∧ s.pos.toNat ≤ s.dlen.toNat + 2 then .payload
    else if 0 < s.dlen.toNat ∧ s.pos.toNat = s.dlen.toNat + 3 then .cksum
    else .inert := by
  rw [← show (1 : Position).toNat = 1 from rfl, ← show (2 : Position).toNat = 2 from rfl]
  simp only [BitVec.toNat_inj]
  rfl

theorem State.phase_eq_lenH : s.phase = .lenH ↔ s.pos.toNat = 1 := by
  rw [State.phase_eq]
  split_ifs <;> simp [*]

theorem State.phase_eq_lenL : s.phase = .lenL ↔ s.pos.toNat = 2 := by
  rw [State.phase_eq]
  split_ifs <;> simp [*]

theorem State.phase_eq_payload : s.phase = .payload ↔
    0 < s.dlen.toNat ∧ 3 ≤ s.pos.toNat ∧ s.pos.toNat ≤ s.dlen.toNat + 2 := by
  rw [State.phase_eq]
  split_ifs <;> simp <;> omega

theorem State.phase_eq_cksum : s.phase = .cksum ↔
    0 < s.dlen.toNat ∧ s.pos.toNat = s.dlen.toNat + 3 := by
  rw [State.phase_eq]
  split_ifs <;> simp <;> omega

theorem State.phase_eq_inert : s.phase = .inert ↔
    s.pos.toNat = 0 ∨ 3 ≤ s.pos.toNat ∧ (s.dlen.toNat = 0 ∨ s.dlen.toNat + 3 < s.pos.toNat) := by
  rw [State.phase_eq]
  split_ifs <;> simp <;> omega

end

/-! ### The row that each phase selects (R102) -/

section
variable {s : State} (hs : s.Inv) {b : Byte} (hb : b ≠ Config.startMarker)
include hs hb

theorem State.Inv.selectsPay_of_phase (h : s.phase = .payload) : selectsPay b s.pos s.dlen s.plen := by
  obtain ⟨hdlen, hlo, hhi⟩ := State.phase_eq_payload.1 h
  obtain ⟨hfill, -, -⟩ := hs
  exact ⟨hb, hlo, by omega⟩

theorem State.Inv.selectsEmit_of_phase (h : s.phase = .cksum) : selectsEmit b s.pos s.dlen s.plen := by
  obtain ⟨hdlen, hpos⟩ := State.phase_eq_cksum.1 h
  obtain ⟨hfill, -, -⟩ := hs
  exact ⟨hb, hdlen, BitVec.eq_of_toNat_eq (by omega), hpos⟩

theorem State.Inv.selectsSkip_of_phase (h : s.phase = .inert) (h0 : s.pos.toNat ≠ 0) :
    selectsSkip b s.pos s.dlen s.plen := by
  have hinert := (State.phase_eq_inert.1 h).resolve_left h0
  obtain ⟨hfill, -, -⟩ := hs
  refine ⟨hb, fun ⟨_, h1⟩ => ?_, fun ⟨_, h2⟩ => ?_, fun ⟨_, _, hlt⟩ => ?_, fun ⟨_, hdlen, _, hpos⟩ => ?_⟩
  · rw [h1] at hinert
    simp at hinert
  · rw [h2] at hinert
    simp at hinert
  · omega
  · omega

end

/-! ### The obligations -/

/-- Settles O46: one FRAMER step of a state that meets the invariant. -/
theorem stepRefinesFramerPseudocode : Obligations.StepRefinesFramerPseudocode :=
  fun _ b hs => hs.framerStep_eq b

/-- Settles O44: the pseudocode answers a state for every byte. -/
theorem stepNeverStops : Obligations.StepNeverStops := by
  intro s hs
  obtain ⟨-, hwait⟩ | ⟨b, rest, -, hstep⟩ := step_cases s
  · exact ⟨s, hwait⟩
  · exact ⟨_, hstep.trans (State.Inv.framerStep_eq (s := { s with input := rest }) hs b)⟩

/-- Settles O59: the phase and the invariant select the row, and the row's registers give the next phase. -/
theorem phasesFollowTable : Obligations.PhasesFollowTable := by
  intro s t b hs hb h
  have hdlen := s.dlen.isLt
  cases hphase : s.phase with
  | lenH =>
    have hpos := State.phase_eq_lenH.1 hphase
    have hc : selectsLenh b s.pos := ⟨hb, BitVec.eq_of_toNat_eq hpos⟩
    cases (framerStep_lenh hc).symm.trans h
    exact ⟨decodeInput_lenh _ _ hc, State.phase_eq_lenL.2 (by simp [hpos, Config.posMax])⟩
  | lenL =>
    have hpos := State.phase_eq_lenL.1 hphase
    have hc : selectsLenl b s.pos := ⟨hb, BitVec.eq_of_toNat_eq hpos⟩
    cases (framerStep_lenl hc).symm.trans h
    refine ⟨decodeInput_lenl _ _ hc, ?_⟩
    split
    next h0 =>
      have h0 : s.dlen + zext16 b = 0 := h0
      exact State.phase_eq_inert.2 (.inr (by simp [h0, hpos, Config.posMax]))
    next h0 =>
      have hpos' : 0 < (s.dlen + zext16 b).toNat :=
        Nat.pos_of_ne_zero fun h => h0 (BitVec.eq_of_toNat_eq h)
      exact State.phase_eq_payload.2 (by simp only [sat17_toNat, hpos, Config.posMax]; omega)
  | payload =>
    obtain ⟨hpos, hlo, hhi⟩ := State.phase_eq_payload.1 hphase
    have hc := hs.selectsPay_of_phase hb hphase
    cases (framerStep_pay hc).symm.trans h
    refine ⟨decodeInput_pay hc, ?_⟩
    split
    next hend => exact State.phase_eq_cksum.2 ⟨hpos, hend⟩
    next hend =>
      refine State.phase_eq_payload.2 ?_
      simp only [sat17_toNat, Config.posMax] at hend ⊢
      omega
  | cksum =>
    obtain ⟨hpos, heq⟩ := State.phase_eq_cksum.1 hphase
    have hc := hs.selectsEmit_of_phase hb hphase
    have hP := hs.holds_contents hc.2.2.1
    cases (framerStep_emit hc (hP.decodePayloadNow_eq (hP.1 ▸ hpos))).symm.trans h
    refine ⟨decodeInput_emit hc, State.phase_eq_inert.2 ?_⟩
    simp only [State.advance_pos, State.emit_pos, State.advance_dlen, State.emit_dlen, sat17_toNat,
      Config.posMax]
    omega
  | inert =>
    intro h0
    have hne : s.pos.toNat ≠ 0 := fun h => h0 (BitVec.eq_of_toNat_eq h)
    have hinert := State.phase_eq_inert.1 hphase
    have hc := hs.selectsSkip_of_phase hb hphase hne
    cases (framerStep_skip hc).symm.trans h
    refine ⟨decodeInput_skip hc, State.phase_eq_inert.2 ?_⟩
    simp only [sat17_toNat, Config.posMax]
    omega

end Sys2Proof.Machine
end

section
/-!
The statements on byte streams (spec 10_state.md R34, R35, R41; 40_framer.md R96 to R100; 60_exceptions.md R160;
70_reset_and_hazards.md R170, R171).
-/

namespace Sys2Proof.Machine

/-! ### The stream of delivered bytes is not looked at (log 3) -/

/-- With any other stream in the state, the operation answers the same, stops included, but for the stream. -/
def IgnoresInput (f : State → Result) : Prop :=
  ∀ (s : State) (rest : List Byte),
    f { s with input := rest } = andThen (f s) fun t => .next { t with input := rest }

section
variable (s : State) (rest : List Byte)

theorem State.bytesFrom_input (count i : Nat) :
    ({ s with input := rest } : State).bytesFrom count i = s.bytesFrom count i := by
  induction count generalizing i with
  | zero => rfl
  | succ count ih => simp only [State.bytesFrom, ih]; rfl

theorem readSets_input (en : BitVec 6) (count k : Nat) :
    readSets { s with input := rest } en count k = readSets s en count k := by
  induction count generalizing k with
  | zero => rfl
  | succ count ih => simp only [readSets, ih]; rfl

theorem readSampleArea_input : readSampleArea { s with input := rest } = readSampleArea s := by
  simp only [readSampleArea, readSets_input]; rfl

end

theorem fillDraft_ignoresInput {α : Type} {read : State → Except Fault α}
    (put : α → AnalogRecord → AnalogRecord)
    (hread : ∀ (s : State) (rest : List Byte), read { s with input := rest } = read s) :
    IgnoresInput fun s => fillDraft s (read s) put := by
  intro s rest
  have hin : insideAnalog { s with input := rest } = insideAnalog s := rfl
  simp only [fillDraft, hin, hread]
  cases insideAnalog s <;> cases read s <;> rfl

theorem runAll_ignoresInput {fs : List (State → Result)} (hfs : ∀ f ∈ fs, IgnoresInput f) :
    IgnoresInput (runAll fs) := by
  induction fs with
  | nil => exact fun _ _ => rfl
  | cons f fs ih =>
    obtain ⟨hf, hrest⟩ := List.forall_mem_cons.1 hfs
    intro s rest
    rw [runAll_cons, hf, runAll_cons, andThen_assoc, andThen_assoc]
    exact congrArg _ (funext fun u => ih hrest u rest)

theorem extractRecord_ignoresInput : IgnoresInput extractRecord := by
  refine runAll_ignoresInput ?_
  simp only [List.forall_mem_cons, List.not_mem_nil, false_imp_iff, implies_true, and_true]
  refine ⟨?_, ?_, ?_, ?_, ?_, ?_, ?_, ?_, fillDraft_ignoresInput _ readSampleArea_input,
    fillDraft_ignoresInput _ fun s rest => s.bytesFrom_input rest _ _⟩
  all_goals exact fillDraft_ignoresInput _ fun _ _ => rfl

theorem emitRecord_ignoresInput : IgnoresInput emitRecord := by
  intro s rest
  rw [emitRecord, emitRecord, extractRecord_ignoresInput]
  cases extractRecord s <;> rfl

theorem execDecAnalog_ignoresInput : IgnoresInput execDecAnalog := by
  intro s rest
  have hbyte : State.byteAt { s with input := rest } 0 = s.byteAt 0 := rfl
  have hms : maskAndSets { s with input := rest } = maskAndSets s := rfl
  have hlen : State.payloadLength { s with input := rest } = s.payloadLength := rfl
  simp only [execDecAnalog, hbyte, hms, hlen, emitRecord_ignoresInput s rest]
  repeat' split
  all_goals rfl

theorem execDecRaw_ignoresInput (tag : Byte) : IgnoresInput (execDecRaw tag) := by
  intro s rest
  have hbyte : State.byteAt { s with input := rest } 0 = s.byteAt 0 := rfl
  have hlen : State.payloadLength { s with input := rest } = s.payloadLength := rfl
  simp only [execDecRaw, hbyte, hlen, s.bytesFrom_input rest]
  repeat' split
  all_goals rfl

theorem decodePayloadNow_ignoresInput : IgnoresInput decodePayloadNow := by
  intro s rest
  have hbyte : State.byteAt { s with input := rest } 0 = s.byteAt 0 := rfl
  simp only [decodePayloadNow, hbyte, execDecAnalog_ignoresInput s rest, fun t => execDecRaw_ignoresInput t s rest]
  repeat' split
  all_goals rfl

theorem framerStep_ignoresInput (b : Byte) : IgnoresInput (framerStep b) := by
  intro s rest
  obtain ⟨rfl, -⟩ | ⟨hc, -⟩ | ⟨hc, -⟩ | ⟨hc, -⟩ | ⟨hc, hd⟩ | ⟨hc, -⟩ :=
    decodeInput_cases b s.pos s.dlen s.plen
  · rfl
  · rw [framerStep_lenh hc, framerStep_lenh (s := { s with input := rest }) hc]; rfl
  · rw [framerStep_lenl hc, framerStep_lenl (s := { s with input := rest }) hc]; rfl
  · rw [framerStep_pay hc, framerStep_pay (s := { s with input := rest }) hc]; rfl
  · have hemit (s : State) (hc : selectsEmit b s.pos s.dlen s.plen) :
        framerStep b s = andThen (decodePayloadNow s) fun t => .next t.advance := by
      rw [framerStep, State.select, decodeInput_emit hc, exec_frEmit hc]
    rw [hemit s hc, hemit { s with input := rest } hc, decodePayloadNow_ignoresInput, andThen_assoc,
      andThen_assoc]
    rfl
  · rw [framerStep_skip hc, framerStep_skip (s := { s with input := rest }) hc]; rfl

/-- A run of the core is its steps in sequence. -/
theorem core_run_succ (n : Nat) (s : State) :
    Sys2Proof.core.run (n + 1) s = andThen (step s) (Sys2Proof.core.run n) := by
  cases h : step s <;> simp [Host.Core.run, core, h]

/-! ### Between frames only POS moves (R94, R96, R171) -/

/-- The FRAMER waits for a marker: no length byte, no payload byte and no checksum is to come. -/
def State.Idle (s : State) : Prop :=
  3 ≤ s.pos.toNat ∧ s.plen = s.dlen ∧ (s.dlen = 0 ∨ s.dlen.toNat + 3 < s.pos.toNat)

theorem State.Idle.selectsSkip {s : State} (hs : s.Idle) {b : Byte} (hb : b ≠ Config.startMarker) :
    selectsSkip b s.pos s.dlen s.plen := by
  obtain ⟨hpos, hplen, hdlen⟩ := hs
  refine ⟨hb, fun ⟨_, h1⟩ => ?_, fun ⟨_, h2⟩ => ?_, fun ⟨_, _, hlt⟩ => ?_, fun ⟨_, h0, _, heq⟩ => ?_⟩
  · simp [h1] at hpos
  · simp [h2] at hpos
  · simp [hplen] at hlt
  · obtain hdlen | hdlen := hdlen
    · simp [hdlen] at h0
    · omega

theorem State.Idle.withPos {s : State} (hs : s.Idle) (n : Nat) :
    State.Idle { s with pos := sat17 (s.pos.toNat + n) } := by
  obtain ⟨hpos, hplen, hdlen⟩ := hs
  have hlt := s.pos.isLt
  have hle : s.pos.toNat ≤ (sat17 (s.pos.toNat + n)).toNat := by
    rw [sat17_toNat, Config.posMax]
    omega
  exact ⟨hpos.trans hle, hplen, hdlen.imp_right fun h => h.trans_le hle⟩

theorem sat17_pos (s : State) : sat17 s.pos.toNat = s.pos := by
  rw [sat17_of_le (by have := s.pos.isLt; unfold Config.posMax; omega), BitVec.ofNat_toNat,
    BitVec.setWidth_eq]

theorem sat17_sat17_add (m n : Nat) : sat17 ((sat17 m).toNat + n) = sat17 (m + n) := by
  refine BitVec.eq_of_toNat_eq ?_
  simp only [sat17_toNat]
  omega

/-- Bytes without a marker are skipped. -/
theorem State.Idle.ingest {s : State} (hs : s.Idle) {bytes : List Byte}
    (hb : ∀ b ∈ bytes, b ≠ Config.startMarker) :
    ingest bytes s = .next { s with pos := sat17 (s.pos.toNat + bytes.length) } := by
  induction bytes generalizing s with
  | nil => rw [List.length_nil, Nat.add_zero, sat17_pos]; rfl
  | cons b bytes ih =>
    obtain ⟨hhead, hrest⟩ := List.forall_mem_cons.1 hb
    rw [Machine.ingest, framerStep_skip (hs.selectsSkip hhead), andThen_next, ih (hs.withPos 1) hrest,
      sat17_sat17_add, List.length_cons, Nat.add_assoc, Nat.add_comm 1]

theorem State.reset_idle : State.reset.Idle := ⟨by decide, rfl, .inl rfl⟩

/-! ### A whole frame (R66, R97) -/

theorem Memory.read_zipIdx (Q : List Byte) (n i : Nat) :
    Memory.read ((Q.zipIdx n).map Prod.swap) (n + i) = Q[i]? := by
  induction Q generalizing n i with
  | nil => rfl
  | cons b Q ih =>
    cases i with
    | zero => simp [Memory.read]
    | succ i => simpa [Memory.read, Nat.add_assoc, Nat.add_comm 1] using ih (n + 1) i

theorem Memory.read_ofBytes (Q : List Byte) (i : Nat) : Memory.read (Memory.ofBytes Q) i = Q[i]? := by
  simpa [Memory.ofBytes] using Memory.read_zipIdx Q 0 i

section
variable (s : State) {P : List Byte} (hP : P.length < 65536)
include hP

theorem State.filling_plen_toNat (dlen : Half) : (s.filling dlen P).plen.toNat = P.length :=
  Nat.mod_eq_of_lt hP

theorem State.filling_pos_toNat (dlen : Half) : (s.filling dlen P).pos.toNat = P.length + 3 :=
  Nat.mod_eq_of_lt (by omega)

/-- POS has counted the checksum byte. -/
theorem State.filling_emit_pos_toNat (dlen : Half) (ev : Event) :
    ((s.filling dlen P).emit ev).advance.pos.toNat = P.length + 4 := by
  rw [State.advance_pos_toNat] <;> rw [State.emit_pos, s.filling_pos_toNat hP]
  unfold Config.posMax
  omega

theorem State.filling_pbufRead (dlen : Half) (i : Nat) : (s.filling dlen P).pbufRead i = P[i]? := by
  obtain hlt | hge := lt_or_ge i P.length
  · rw [State.pbufRead_of_lt (by rw [s.filling_plen_toNat hP]; exact hlt)]
    exact Memory.read_ofBytes P i
  · rw [State.pbufRead_of_ge (by rw [s.filling_plen_toNat hP]; exact hge), List.getElem?_eq_none hge]

/-- A complete payload is held whole. -/
theorem State.filling_holds {dlen : Half} (hdlen : dlen.toNat = P.length) :
    (s.filling dlen P).Holds P :=
  ⟨hdlen, fun i _ => s.filling_pbufRead hP dlen i⟩

end

/-- The byte after a complete payload hands it to the DECODER (R92). -/
theorem State.framerStep_filled (s : State) {P : List Byte} {dlen : Half} (hpos : 0 < P.length)
    (hlen : P.length < 65536) (hdlen : dlen.toNat = P.length) {ck : Byte}
    (hck : ck ≠ Config.startMarker) : framerStep ck (s.filling dlen P) =
      .next ((s.filling dlen P).emit (Reference.decodeEvent P)).advance := by
  have hplen : (s.filling dlen P).plen = dlen :=
    BitVec.eq_of_toNat_eq ((s.filling_plen_toNat hlen dlen).trans hdlen.symm)
  have hoff : (s.filling dlen P).pos.toNat = dlen.toNat + 3 := hdlen ▸ s.filling_pos_toNat hlen dlen
  exact framerStep_emit ⟨hck, hdlen ▸ hpos, hplen, hoff⟩
    ((s.filling_holds hlen hdlen).decodePayloadNow_eq hpos)

/-- A deliverable frame leaves its payload in PBUF, its event emitted, and the FRAMER waiting (R97). -/
theorem ingest_frame {P : List Byte} {ck : Byte} (s : State) (hd : deliverable P ck) :
    ∃ dlen : Half, dlen.toNat = P.length ∧ ingest (wireFrame P ck) s =
      .next ((s.filling dlen P).emit (Reference.decodeEvent P)).advance := by
  obtain ⟨hpos, hlen, hplain⟩ := hd
  have hdlen := lengthBytes_toNat hlen
  have hhi : BitVec.ofNat 8 (P.length / 256) ≠ Config.startMarker := hplain _ (by simp [wireFrame])
  have hlo : BitVec.ofNat 8 P.length ≠ Config.startMarker := hplain _ (by simp [wireFrame])
  have hpay : ∀ b ∈ P, b ≠ Config.startMarker := fun b hb => hplain b (by simp [wireFrame, hb])
  have hck : ck ≠ Config.startMarker := hplain _ (by simp [wireFrame])
  refine ⟨_, hdlen, ?_⟩
  rw [wireFrame, s.ingest_header hhi hlo, ingest_append,
    s.ingest_filling [] P hpay (by rw [hdlen, List.length_nil, Nat.zero_add]), andThen_next, List.nil_append,
    ingest, s.framerStep_filled hpos hlen hdlen hck, andThen_next, ingest]

/-- After a deliverable frame the FRAMER waits for a marker. -/
theorem State.idle_afterFrame (s : State) {P : List Byte} {dlen : Half} (hlen : P.length < 65536)
    (hdlen : dlen.toNat = P.length) (ev : Event) : ((s.filling dlen P).emit ev).advance.Idle := by
  have hpos := s.filling_emit_pos_toNat hlen dlen ev
  refine ⟨by omega, BitVec.eq_of_toNat_eq ((s.filling_plen_toNat hlen dlen).trans hdlen.symm), .inr ?_⟩
  rw [hpos]
  show dlen.toNat + 3 < _
  omega

/-- Frames with garbage after each append their events in stream order, whatever came before (R100). -/
theorem ingest_frames (frames : List (List Byte × Byte × List Byte)) (s : State)
    (hframes : ∀ f ∈ frames, deliverable f.1 f.2.1 ∧ ∀ b ∈ f.2.2, b ≠ Config.startMarker) :
    ∃ t, ingest (frames.map fun f => wireFrame f.1 f.2.1 ++ f.2.2).flatten s = .next t ∧
      t.events = s.events ++ frames.map fun f => Reference.decodeEvent f.1 := by
  induction frames generalizing s with
  | nil => exact ⟨s, rfl, (List.append_nil _).symm⟩
  | cons f frames ih =>
    obtain ⟨⟨hd, hgarbage⟩, hrest⟩ := List.forall_mem_cons.1 hframes
    obtain ⟨dlen, hdlen, hframe⟩ := ingest_frame s hd
    obtain ⟨t, ht, hevents⟩ := ih _ hrest
    refine ⟨t, ?_, ?_⟩
    · rw [List.map_cons, List.flatten_cons, ingest_append, ingest_append, hframe, andThen_next,
        (s.idle_afterFrame hd.2.1 hdlen _).ingest hgarbage, andThen_next]
      exact ht
    · rw [hevents, List.map_cons]
      exact List.append_assoc _ _ _

/-! ### The declared length (R24) -/

/-- Past the length bytes a FRAMER step on no marker leaves DLEN, and is still past them. -/
theorem framerStep_keeps_dlen {b : Byte} {s t : State} (hb : b ≠ Config.startMarker)
    (hpos : 3 ≤ s.pos.toNat) (h : framerStep b s = .next t) : t.dlen = s.dlen ∧ 3 ≤ t.pos.toNat := by
  have hsat : 3 ≤ (sat17 (s.pos.toNat + 1)).toNat := by
    rw [sat17_toNat, Config.posMax]
    omega
  obtain ⟨hm, -⟩ | ⟨⟨-, h1⟩, -⟩ | ⟨⟨-, h2⟩, -⟩ | ⟨-, rfl⟩ | ⟨-, ev, -, rfl⟩ | ⟨-, rfl⟩ :=
    framerStep_cases h
  · exact absurd hm hb
  · simp [h1] at hpos
  · simp [h2] at hpos
  all_goals exact ⟨rfl, hsat⟩

theorem ingest_keeps_dlen {bytes : List Byte} {s : State} (hs : s.Inv) (hpos : 3 ≤ s.pos.toNat)
    (hb : ∀ b ∈ bytes, b ≠ Config.startMarker) : ∃ t, ingest bytes s = .next t ∧ t.dlen = s.dlen := by
  induction bytes generalizing s with
  | nil => exact ⟨s, rfl, rfl⟩
  | cons b bytes ih =>
    obtain ⟨hhead, hrest⟩ := List.forall_mem_cons.1 hb
    have hstep := hs.framerStep_eq b
    obtain ⟨hdlen, hpos'⟩ := framerStep_keeps_dlen hhead hpos hstep
    obtain ⟨t, ht, htdlen⟩ := ih (framerStep_keeps_inv hs hstep) hpos' hrest
    exact ⟨t, by rw [ingest, hstep, andThen_next, ht], htdlen.trans hdlen⟩

/-! ### The obligations -/

/-- Settles O50: by induction on the chunks. -/
theorem chunkBoundariesDoNotMatter : Obligations.ChunkBoundariesDoNotMatter := by
  intro chunks
  induction chunks with
  | nil => exact fun _ => rfl
  | cons chunk chunks ih =>
    intro s
    rw [ingestChunks, List.flatten_cons, ingest_append]
    exact congrArg _ (funext ih)

/-- Settles O51: the bytes behind the one taken do not influence the FRAMER's step. -/
theorem steppingDeliveredBytesIsIngest : Obligations.SteppingDeliveredBytesIsIngest := by
  intro chunk
  induction chunk with
  | nil =>
    intro s hs
    show Host.Outcome.next { s with input := s.input ++ [] } = .next s
    rw [List.append_nil]
  | cons b rest ih =>
    intro s hs
    have hstep : step (s.deliver (b :: rest)) = framerStep b { s with input := rest } := by
      rw [step, State.fetch_cons (by rw [State.deliver_input, hs, List.nil_append])]
      rfl
    rw [List.length_cons, core_run_succ, hstep, framerStep_ignoresInput, ingest]
    cases ht : framerStep b s with
    | next t =>
      have hinput : t.input = [] := (framerStep_input_draft ht).1.trans hs
      have hdeliver : { t with input := rest } = t.deliver rest := by
        rw [State.deliver, hinput, List.nil_append]
      rw [andThen_next, andThen_next, hdeliver]
      exact ih t hinput
    | fault f => rfl
    | refused r => rfl

/-- Settles O52: the state after the frame, field by field. -/
theorem deliverableFrameEmitsOnce : Obligations.DeliverableFrameEmitsOnce := by
  intro P ck s hd
  obtain ⟨dlen, hdlen, hframe⟩ := ingest_frame s hd
  obtain ⟨-, hlen, -⟩ := hd
  exact ⟨_, hframe, rfl, s.filling_emit_pos_toNat hlen dlen _, hdlen, s.filling_plen_toNat hlen dlen,
    s.filling_pbufRead hlen dlen, rfl, rfl⟩

/-- Settles O53: the garbage before the first frame is skipped by the waiting FRAMER. -/
theorem backToBackFramesEmitInOrder : Obligations.BackToBackFramesEmitInOrder := by
  intro garbage frames hgarbage hframes
  obtain ⟨t, ht, hevents⟩ := ingest_frames frames
    { State.reset with pos := sat17 (State.reset.pos.toNat + garbage.length) } hframes
  exact ⟨t, by rw [run, ingest_append, State.reset_idle.ingest hgarbage, andThen_next]; exact ht, hevents⟩

/-- Settles O56: a header that declares no payload leaves the FRAMER waiting. -/
theorem zeroLengthHeaderIsInert : Obligations.ZeroLengthHeaderIsInert := by
  intro bytes s hb
  have hidle : (s.filling 0 []).Idle := ⟨le_rfl, rfl, .inl rfl⟩
  obtain ⟨hpos, -, -⟩ := hidle.withPos bytes.length
  exact ⟨_, (s.ingest_header (by decide) (by decide) bytes).trans (hidle.ingest hb), rfl, rfl, rfl,
    fun _ => State.pbufRead_of_ge (Nat.zero_le _), hpos⟩

/-- Settles O57: POS is saturated at reset. -/
theorem idleReceiverIgnoresBytes : Obligations.IdleReceiverIgnoresBytes := by
  intro bytes hb
  have hpos : sat17 (State.reset.pos.toNat + bytes.length) = State.reset.pos :=
    BitVec.eq_of_toNat_eq ((sat17_toNat _).trans (Nat.min_eq_right (Nat.le_add_right _ _)))
  rw [run, State.reset_idle.ingest hb, hpos]

/-- Settles O58: the header declares the length, and no later byte but a marker changes it. -/
theorem declaredLengthStays : Obligations.DeclaredLengthStays := by
  intro hi lo bytes s hhi hlo hb
  have hinv : (s.filling (hi ++ lo) []).Inv := .of_pos le_rfl (Nat.min_zero _).symm rfl
  obtain ⟨t, ht, hdlen⟩ := ingest_keeps_dlen hinv le_rfl hb
  exact ⟨t, (s.ingest_header hhi hlo bytes).trans ht, hdlen⟩

/-- Settles O60: one entry of the list is appended, or one replaced. -/
theorem instancesAreIsolated : Obligations.InstancesAreIsolated := by
  refine ⟨fun m => ⟨by simp [Platform.create], by simp [Platform.create], fun j hj => ?_⟩,
    fun m m' k chunk h => ?_⟩
  · exact List.getElem?_append_left hj
  · unfold Platform.ingest at h
    split at h
    · cases h
    next s hs =>
      split at h
      next t ht =>
        cases h
        have hk : k < m.receivers.length := (List.getElem?_eq_some_iff.1 hs).1
        exact ⟨List.length_set, fun j hj => List.getElem?_set_ne (Ne.symm hj),
          s, t, hs, by rw [List.getElem?_set_self hk], ht⟩
      · cases h
      · cases h

end Sys2Proof.Machine
end

section
/-!
The statements on the analog record (spec 41_decoder.md R111 to R124; 42_sample_extractor.md R130 to R137): what each
extraction, DEC_ANALOG and DEC_RAW answer on a payload, and that DEC_ANALOG needs no byte past the required length.
-/

namespace Sys2Proof.Machine

/-! ### An analog report, byte by byte (R69) -/

theorem State.Holds.report {s : State} {b1 b2 b3 b4 b5 b6 b7 : Byte} {area : List Byte}
    (h : s.Holds (0x83 :: b1 :: b2 :: b3 :: b4 :: b5 :: b6 :: b7 :: area)) :
    s.HoldsReport (0x83 :: b1 :: b2 :: b3 :: b4 :: b5 :: b6 :: b7 :: area) :=
  ⟨h, rfl, by simp [Config.hdrLen]⟩

/-- Bit `c` of the mask is bit `c + 1` of the high indicator byte (R130). -/
theorem getLsbD_channelMask (chH : Byte) {c : Nat} (hc : c < 6) :
    (channelMask chH).getLsbD c = chH.getLsbD (c + 1) := by
  simp [channelMask, hc, Nat.add_comm]

/-- The count of the mask is the length of the channel list (R131, R132). -/
theorem length_channelList (en : BitVec 6) : (channelList en).length = popcount en :=
  List.countP_eq_length_filter.symm

/-- Eight bytes sum to less than 2 to the 11th (R121). -/
theorem Reference.diagnosticChecksum_toNat (P : List Byte) :
    (analogRecord P).diagnosticChecksum.toNat =
      (at0 P 0).toNat + (at0 P 1).toNat + (at0 P 2).toNat + (at0 P 3).toNat +
        (at0 P 4).toNat + (at0 P 5).toNat + (at0 P 6).toNat + (at0 P 7).toNat := by
  have hlt (i : Nat) : (at0 P i).toNat < 256 := (at0 P i).isLt
  have h0 := hlt 0
  have h1 := hlt 1
  have h2 := hlt 2
  have h3 := hlt 3
  have h4 := hlt 4
  have h5 := hlt 5
  have h6 := hlt 6
  have h7 := hlt 7
  exact Nat.mod_eq_of_lt (by omega)

theorem Reference.length_sampleSets (P : List Byte) (en : BitVec 6) (S : Nat) :
    (sampleSets P en S).length = S := by
  simp [sampleSets]

theorem Reference.getElem_sampleSets (P : List Byte) (en : BitVec 6) (S : Nat) {k c : Nat}
    (hk : k < (sampleSets P en S).length) (hc : c < 6) : (sampleSets P en S)[k][c] = slot P en k c := by
  simp only [sampleSets, List.getElem_map, List.getElem_range]
  match c, hc with
  | 0, _ => rfl
  | 1, _ => rfl
  | 2, _ => rfl
  | 3, _ => rfl
  | 4, _ => rfl
  | 5, _ => rfl

/-! ### A report whose bytes below the required length are there (R120, R123) -/

/-- PBUF holds an analog report's bytes below its required length, which the payload reaches. What lies past it,
in PBUF or in `P`, is left open. -/
structure State.HoldsRecord (s : State) (P : List Byte) : Prop where
  tag : Reference.at0 P 0 = Config.analogTag
  long : requiredLength (channelMask (Reference.at0 P 6)) (Reference.at0 P 5) ≤ s.payloadLength
  bytes : ∀ i < requiredLength (channelMask (Reference.at0 P 6)) (Reference.at0 P 5),
    s.byteAt i = .ok (Reference.at0 P i)

section
variable {s : State} {P : List Byte} (h : s.HoldsRecord P)
include h

theorem State.HoldsRecord.header : Config.hdrLen ≤ s.payloadLength :=
  (requiredLength_range _ _).1.trans h.long

theorem State.HoldsRecord.byteAt {i : Nat} (hi : i < Config.hdrLen) :
    s.byteAt i = .ok (Reference.at0 P i) :=
  h.bytes i (lt_of_lt_of_le hi (requiredLength_range _ _).1)

theorem State.HoldsRecord.tagByte : s.byteAt 0 = .ok Config.analogTag := h.tag ▸ h.byteAt (by decide)

theorem State.HoldsRecord.maskAndSets_eq :
    maskAndSets s = .ok (channelMask (Reference.at0 P 6), Reference.at0 P 5) :=
  maskAndSets_ok.2 ⟨_, h.byteAt (by decide), h.byteAt (by decide), rfl⟩

theorem State.HoldsRecord.readSampleArea_eq :
    readSampleArea s = .ok (Reference.sampleSets P (channelMask (Reference.at0 P 6))
      (Reference.at0 P 5).toNat) := by
  rw [readSampleArea_of_long h.maskAndSets_eq h.long]
  exact readSets_all h.bytes le_rfl

theorem State.HoldsRecord.headerBytes :
    s.bytesFrom Config.hdrLen 0 = .ok ((List.range Config.hdrLen).map (Reference.at0 P)) :=
  State.bytesFrom_ok.2 ⟨by simp, fun k hk => by simpa using h.byteAt (by simpa using hk)⟩

/-- The ten extractions build the pseudocode's record from these bytes alone (R122, R123). -/
theorem State.HoldsRecord.extractRecord_eq :
    extractRecord s = .next { s with draft := Reference.analogRecord P } := by
  have hin : insideAnalog s = .ok () := insideAnalog_ok.2 ⟨h.tagByte, h.header⟩
  have hind (d : AnalogRecord) : indicators { s with draft := d } = indicators s := rfl
  have hindicators : indicators s = .ok (Reference.at0 P 6, Reference.at0 P 7) := by
    rw [indicators, h.byteAt (by decide), h.byteAt (by decide)]
    rfl
  have hhalf : s.halfAt 1 = .ok (Reference.at0 P 1 ++ Reference.at0 P 2) :=
    State.halfAt_ok.2 ⟨_, _, h.byteAt (by decide), h.byteAt (by decide), rfl⟩
  simp only [extractRecord, runAll_cons, runAll_nil, andThen_next, execExType, execExSrc16, execExRssi,
    execExAbcast, execExPbcast, execExNsets, execExChind, execExChmask, execExSamples, execExDiag,
    fillDraft, insideAnalog_draft, State.byteAt_draft, State.halfAt_draft, State.bytesFrom_draft,
    readSampleArea_draft, hin, hind, hindicators, hhalf, h.byteAt (i := 0) (by decide),
    h.byteAt (i := 3) (by decide), h.byteAt (i := 4) (by decide), h.byteAt (i := 5) (by decide),
    h.byteAt (i := 6) (by decide), h.readSampleArea_eq, h.headerBytes, Reference.diagnosticSum_header]
  rfl

theorem State.HoldsRecord.execDecAnalog_eq :
    execDecAnalog s = .next (s.emit (.analog (Reference.analogRecord P))) :=
  execDecAnalog_of_extracted h.tagByte h.header h.maskAndSets_eq h.long h.extractRecord_eq

end

/-- The bytes below the required length, where they are all there, are a report. -/
theorem State.holdsRecord_of_isSome {s : State} {sets chH : Byte} (h0 : s.pbufRead 0 = some 0x83)
    (h5 : s.pbufRead 5 = some sets) (h6 : s.pbufRead 6 = some chH)
    (hlen : requiredLength (channelMask chH) sets ≤ s.dlen.toNat)
    (hbytes : ∀ i < requiredLength (channelMask chH) sets, (s.pbufRead i).isSome = true) :
    s.HoldsRecord ((List.range (requiredLength (channelMask chH) sets)).map
      fun i => (s.pbufRead i).getD 0) := by
  have h8 := (requiredLength_range (channelMask chH) sets).1
  have hat (i : Nat) (hi : i < requiredLength (channelMask chH) sets) : Reference.at0
      ((List.range (requiredLength (channelMask chH) sets)).map fun i => (s.pbufRead i).getD 0) i =
        (s.pbufRead i).getD 0 := by
    rw [Reference.at0_of_lt (by simpa using hi)]
    simp
  have hat5 := hat 5 (by omega)
  have hat6 := hat 6 (by omega)
  rw [h5, Option.getD_some] at hat5
  rw [h6, Option.getD_some] at hat6
  refine ⟨by rw [hat 0 (by omega), h0]; rfl, by rwa [hat5, hat6], fun i hi => ?_⟩
  rw [hat5, hat6] at hi
  obtain ⟨v, hv⟩ := Option.isSome_iff_exists.1 (hbytes i hi)
  rw [hat i hi, hv]
  exact State.byteAt_of_some (by omega) hv

/-! ### The obligations -/

/-- Settles O20: the payload reads back whole. -/
theorem decRawPassesPayload : Obligations.DecRawPassesPayload :=
  fun _ _ _ h htag => h.execDecRaw_eq (Nat.succ_pos _) htag

/-- Settles O21: the pseudocode's record of these bytes, field by field. -/
theorem decAnalogEmitsRecord : Obligations.DecAnalogEmitsRecord := by
  intro s b1 b2 b3 b4 b5 b6 b7 area h hreq
  have hlong : ¬ (0x83 :: b1 :: b2 :: b3 :: b4 :: b5 :: b6 :: b7 :: area).length <
      requiredLength (channelMask b6) b5 := by
    simp only [requiredLength, Config.hdrLen, List.length_cons]
    omega
  exact h.report.execDecAnalog_eq.trans (congrArg _ (congrArg _ (if_neg hlong)))

/-- Settles O22: the header guard comes before any other read. -/
theorem shortHeaderIsTruncated : Obligations.ShortHeaderIsTruncated :=
  fun _ h0 hd hlen => execDecAnalog_of_shortHeader (State.byteAt_of_some hd h0) hlen

/-- Settles O23: the range, and the two answers on either side of the required length. -/
theorem requiredLengthDecides : Obligations.RequiredLengthDecides := by
  intro s sets chH h0 h5 h6 hd
  refine ⟨requiredLength_range (channelMask chH) sets, fun hlen => ?_, fun hlen hbytes => ?_⟩
  · exact execDecAnalog_of_shortArea (State.byteAt_of_some (by omega) h0) hd
      (maskAndSets_of_some hd h5 h6) hlen
  · exact ⟨_, (State.holdsRecord_of_isSome h0 h5 h6 hlen hbytes).execDecAnalog_eq⟩

/-- Settles O24: both states hold the record of the bytes that they share. -/
theorem excessBytesAreIgnored : Obligations.ExcessBytesAreIgnored := by
  intro s t sets chH h0 h5 h6 hs ht hbytes
  have h8 := (requiredLength_range (channelMask chH) sets).1
  have hread (i : Nat) (hi : i < requiredLength (channelMask chH) sets) : t.pbufRead i = s.pbufRead i :=
    (hbytes i hi).2
  have hrecord := State.holdsRecord_of_isSome h0 h5 h6 hs fun i hi => (hbytes i hi).1
  have hrecord' := State.holdsRecord_of_isSome ((hread 0 (by omega)).trans h0)
    ((hread 5 (by omega)).trans h5) ((hread 6 (by omega)).trans h6) ht
    fun i hi => hread i hi ▸ (hbytes i hi).1
  have hsame : (List.range (requiredLength (channelMask chH) sets)).map (fun i => (t.pbufRead i).getD 0) =
      (List.range (requiredLength (channelMask chH) sets)).map fun i => (s.pbufRead i).getD 0 :=
    List.map_congr_left fun i hi => by rw [hread i (List.mem_range.1 hi)]
  exact ⟨_, hrecord.execDecAnalog_eq, (hsame ▸ hrecord').execDecAnalog_eq⟩

/-- Settles O26: the operation is `Decode` of the payload, in either state. -/
theorem decodeIsPure : Obligations.DecodeIsPure := by
  have hdec (s : State) (tag : Byte) (rest : List Byte) (h : s.Holds (tag :: rest)) :
      exec (decodeTag tag) s = .next (s.emit (Reference.decodeEvent (tag :: rest))) :=
    (exec_decodeTag (h.byteAt (Nat.succ_pos _))).trans (h.decodePayloadNow_eq (Nat.succ_pos _))
  exact fun s t tag rest hs ht => ⟨_, hdec s tag rest hs, hdec t tag rest ht⟩

/-- Settles O28: the guard passes and byte 0 can be read. -/
theorem exTypeExtractsTag : Obligations.ExTypeExtractsTag :=
  fun s _ _ _ _ _ _ _ _ h => h.report.execExType_eq s.draft

/-- Settles O29: the two bytes do not overlap. -/
theorem exSrc16ExtractsAddress : Obligations.ExSrc16ExtractsAddress := by
  intro s b1 b2 b3 b4 b5 b6 b7 area h
  refine ⟨h.report.execExSrc16_eq s.draft, BitVec.eq_of_toNat_eq ?_⟩
  show _ = ((zext16 b1 <<< 8) ||| zext16 b2).toNat
  rw [BitVec.toNat_or, zext16_shift_toNat, zext16_toNat, BitVec.toNat_append, Nat.shiftLeft_eq]

/-- Settles O30: the guard passes and byte 3 can be read. -/
theorem exRssiExtractsSignal : Obligations.ExRssiExtractsSignal :=
  fun s _ _ _ _ _ _ _ _ h => h.report.execExRssi_eq s.draft

/-- Settles O31: the guard passes and byte 4 can be read. -/
theorem exAbcastExtractsBitOne : Obligations.ExAbcastExtractsBitOne :=
  fun s _ _ _ _ _ _ _ _ h => h.report.execExAbcast_eq s.draft

/-- Settles O32: the guard passes and byte 4 can be read. -/
theorem exPbcastExtractsBitTwo : Obligations.ExPbcastExtractsBitTwo :=
  fun s _ _ _ _ _ _ _ _ h => h.report.execExPbcast_eq s.draft

/-- Settles O33: the guard passes and byte 5 can be read. -/
theorem exNsetsExtractsCount : Obligations.ExNsetsExtractsCount :=
  fun s _ _ _ _ _ _ _ _ h => h.report.execExNsets_eq s.draft

/-- Settles O34: the guard passes and bytes 6 and 7 can be read. -/
theorem exChindCopiesIndicators : Obligations.ExChindCopiesIndicators :=
  fun s _ _ _ _ _ _ _ _ h => h.report.execExChind_eq s.draft

/-- Settles O35: the mask, and its count in 3 bits. -/
theorem exChmaskExtractsMask : Obligations.ExChmaskExtractsMask := by
  intro s b1 b2 b3 b4 b5 b6 b7 area h
  refine ⟨_, _, h.report.execExChmask_eq s.draft, fun c hc => getLsbD_channelMask b6 hc, ?_, ?_⟩
  · rw [popcount_toNat, length_channelList]
  · rw [popcount_toNat]
    exact popcount_le _

/-- Settles O36: the pseudocode's sample sets, slot by slot. -/
theorem exSamplesUnpacksReadings : Obligations.ExSamplesUnpacksReadings := by
  intro s b1 b2 b3 b4 b5 b6 b7 area P n h hreq
  refine ⟨_, h.report.execExSamples_eq s.draft hreq, Reference.length_sampleSets _ _ _, fun k c hk hc => ?_⟩
  rw [Reference.getElem_sampleSets _ _ _ hk hc, Reference.slot, ← getLsbD_channelMask b6 hc]
  rfl

/-- Settles O37: the sum does not wrap. -/
theorem exDiagSumsHeader : Obligations.ExDiagSumsHeader := by
  intro s b1 b2 b3 b4 b5 b6 b7 area h
  refine ⟨_, h.report.execExDiag_eq s.draft, ?_⟩
  rw [Reference.diagnosticSum_header, Reference.diagnosticChecksum_toNat]
  rfl

/-- Settles O41: bit 16 tells the two forms apart, and the reading stands below it. -/
theorem packedSlotsAreFaithful : Obligations.PackedSlotsAreFaithful := by
  refine ⟨fun x => ?_, rfl, fun v => ?_⟩
  · cases x with
    | noData => rfl
    | value v =>
      have hvalid : ((1 : BitVec 1) ++ v).getLsbD 16 = true := BitVec.getLsbD_append.trans rfl
      have hreading : ((1 : BitVec 1) ++ v).extractLsb' 0 16 = v := BitVec.extractLsb'_append_eq_right
      rw [Slot.pack, unpackSlot, if_pos hvalid, hreading]
  · rw [Slot.pack, BitVec.toNat_append, ← Nat.shiftLeft_add_eq_or_of_lt v.isLt]
    rfl

end Sys2Proof.Machine
end
